-- ==== Sys2Proof/Word.lean ====
section
/-!
DEFINITION. The word of the machine and the index of a general register.
-/

namespace Sys2Proof

/-- A 16-bit value: a register, a memory or I/O cell, an address, the pc, an instruction word
(spec/00_scope.md R5, R8; spec/10_state.md R20, R25; spec/20_memory.md R41). -/
abbrev Word := BitVec 16

/-- The 4-bit index of a general register, `x[0]` to `x[15]` (spec/10_state.md R20; spec/30_encoding.md R61). -/
abbrev RegIdx := BitVec 4

end Sys2Proof
end

