-- ==== Sys2Proof/Syntax.lean ====
section
/-!
DEFINITION. The instructions of SAYAC, one constructor for each of the 25 rows of spec/opcode_table.json
(spec/30_encoding.md R70). Operands stand in the order of the assembler syntax (R76).
-/

namespace Sys2Proof

/-- The two kinds of shift, named by SLR and SAR and chosen by the LA bit of SHI (R131, R180). -/
inductive ShiftKind where
  | logical
  | arithmetic
  deriving DecidableEq, Repr

/-- The two complements chosen by the 1/2C bit of NTR and NTD (R181, R182). -/
inductive Complement where
  | ones
  | twos
  deriving DecidableEq, Repr

/-- An instruction. A field is the bit field of the word (R62 to R69), so that every term of this type has an encoding. -/
inductive Instr where
  /-- R100: load from the memory space at `x[rs1]`. -/
  | ldr (rd rs1 : RegIdx)
  /-- R101: load from the I/O space at `x[rs1]`. -/
  | ldrio (rd rs1 : RegIdx)
  /-- R102: store `x[rs1]` to the memory space at `x[rd]`. -/
  | str (rd rs1 : RegIdx)
  /-- R103: store `x[rs1]` to the I/O space at `x[rd]`. -/
  | strio (rd rs1 : RegIdx)
  /-- R110: jump relative by `x[rs1]`; `save` is the Save PC bit S. -/
  | jmr (save : Bool) (rd rs1 : RegIdx)
  /-- R111: jump relative by the signed 6-bit immediate, saving the return address. -/
  | jmi (rd : RegIdx) (imm : BitVec 6)
  /-- R120: bitwise and. -/
  | anr (rd rs1 rs2 : RegIdx)
  /-- R121: bitwise and with the zero-extended immediate. -/
  | ani (rd : RegIdx) (imm : BitVec 8)
  /-- R122: move the sign-extended immediate. -/
  | msi (rd : RegIdx) (imm : BitVec 8)
  /-- R123: write the immediate into bits 15:8. -/
  | mhi (rd : RegIdx) (imm : BitVec 8)
  /-- R132: logical shift by `x[rs2][4:0]`. -/
  | slr (rd rs1 rs2 : RegIdx)
  /-- R133: arithmetic shift by `x[rs2][4:0]`. -/
  | sar (rd rs1 rs2 : RegIdx)
  /-- R140: sum. -/
  | add (rd rs1 rs2 : RegIdx)
  /-- R141: difference. -/
  | sub (rd rs1 rs2 : RegIdx)
  /-- R142: add the sign-extended immediate. -/
  | adi (rd : RegIdx) (imm : BitVec 8)
  /-- R143: subtract the sign-extended immediate. -/
  | sui (rd : RegIdx) (imm : BitVec 8)
  /-- R144: high half of the product. -/
  | mul (rd rs1 rs2 : RegIdx)
  /-- R145: quotient. -/
  | div (rd rs1 rs2 : RegIdx)
  /-- R161: compare `x[rs2]` with `x[rs1]`. -/
  | cmr (rs1 rs2 : RegIdx)
  /-- R162: compare the sign-extended 5-bit immediate with `x[rs1]`. -/
  | cmi (imm : BitVec 5) (rs1 : RegIdx)
  /-- R164: conditional branch to `x[rd]`. -/
  | brc (fib : BitVec 5) (rd : RegIdx)
  /-- R165: conditional branch relative by `x[rd]`. -/
  | brr (fib : BitVec 5) (rd : RegIdx)
  /-- R180: shift by the signed 5-bit immediate; `kind` is the LA bit. -/
  | shi (kind : ShiftKind) (rd : RegIdx) (shimm : BitVec 5)
  /-- R181: complement of `x[rs1]`; `c` is the 1/2C bit. -/
  | ntr (c : Complement) (rd rs1 : RegIdx)
  /-- R182: complement of `x[rd]` in place; `c` is the 1/2C bit. -/
  | ntd (c : Complement) (rd : RegIdx)
  deriving DecidableEq, Repr

end Sys2Proof
end

