-- ==== Sys2Proof/WellFormed.lean ====
section
/-!
DEFINITION. Well-formed instruction words. Every term of `Instr` is well formed by the types of its fields (each field
admits exactly the values its bits have, R61 and R69), so what can be ill formed is a word: it has a reserved opcode
(R71) or a bit set that belongs to no field (R72).
-/

namespace Sys2Proof

/-- R71: primary opcodes 0000 and 0001 are reserved. -/
def opcodeAssigned (w : Word) : Bool :=
  decide (0x2000 ≤ w.toNat)

/-- R72, first part: bit 8 of LDR, LDRio, STR, STRio and JMR (opcode 0010 with `w[11:10]` not 11) is zero. -/
def memJumpBlankClear (w : Word) : Bool :=
  !(w.extractLsb' 12 4 == 0b0010#4 && w.extractLsb' 10 2 != 0b11#2 && w.getLsbD 8)

/-- R72, second part: bit 8 of CMR (opcode 1111 with `w[11:9]` = 000) is zero. -/
def cmrBlankClear (w : Word) : Bool :=
  !(w.extractLsb' 9 7 == 0b1111000#7 && w.getLsbD 8)

/-- R72, third part: bits 7:4 of NTD (opcode 1111 with `w[11:9]` = 111) are zero. -/
def ntdBlankClear (w : Word) : Bool :=
  !(w.extractLsb' 9 7 == 0b1111111#7 && w.extractLsb' 4 4 != 0#4)

/-- The words that decode to an instruction (R70): an assigned opcode and every unused bit zero. -/
def wordWellFormed (w : Word) : Bool :=
  opcodeAssigned w && memJumpBlankClear w && cmrBlankClear w && ntdBlankClear w

end Sys2Proof
end

