-- ==== Sys2Proof/Decode.lean ====
section
/-!
DEFINITION. The decoder, total on 16-bit words and rejecting by name (spec/30_encoding.md R70 to R72), and the encoder
(R62 to R68), each written from the layouts of the spec.
-/

namespace Sys2Proof

/-- Why a word is reserved. -/
inductive ReservedWord where
  /-- R71: primary opcode 0000 or 0001. -/
  | opcode
  /-- R72: a bit that belongs to no field is set. -/
  | blankBit
  deriving DecidableEq, Repr

/-- What a word decodes to. -/
inductive Decoded where
  | instr (i : Instr)
  | reserved (why : ReservedWord)
  deriving DecidableEq, Repr

/-- Bits 15:12, the primary opcode (R61). -/
def fieldOpcode (w : Word) : BitVec 4 := w.extractLsb' 12 4

/-- Bits 11:8, the first source register of layout R3 (R62). -/
def fieldHigh (w : Word) : RegIdx := w.extractLsb' 8 4

/-- Bits 7:4: `rs2` of layouts R3 and R2C, `rs1` of layouts R2X and R2N (R62, R64, R66, R68). -/
def fieldMid (w : Word) : RegIdx := w.extractLsb' 4 4

/-- Bits 3:0: `rd`, or `rs1` of CMR and CMI (R61). -/
def fieldLow (w : Word) : RegIdx := w.extractLsb' 0 4

/-- Bits 11:4, the immediate of layout I8 (R63). -/
def fieldImm8 (w : Word) : BitVec 8 := w.extractLsb' 4 8

/-- Bits 9:4, the immediate of layout I6 (R65). -/
def fieldImm6 (w : Word) : BitVec 6 := w.extractLsb' 4 6

/-- Bits 8:4: the immediate, FIB or shimm of layout I5 (R67). -/
def fieldImm5 (w : Word) : BitVec 5 := w.extractLsb' 4 5

/-- The LA bit: 0 logical, 1 arithmetic (R180). -/
def shiftKindOf (la : Bool) : ShiftKind :=
  match la with
  | false => .logical
  | true => .arithmetic

/-- The LA bit of a kind. -/
def laBit (k : ShiftKind) : Bool :=
  match k with
  | .logical => false
  | .arithmetic => true

/-- The 1/2C bit: 0 one's, 1 two's complement (R181, R182). -/
def complementOf (c : Bool) : Complement :=
  match c with
  | false => .ones
  | true => .twos

/-- The 1/2C bit of a complement. -/
def complementBit (c : Complement) : Bool :=
  match c with
  | .ones => false
  | .twos => true

/-- The rows of R70 under opcode 0010, by bits 11, 10, 9 and 8. -/
def decodeMemJump (w : Word) : Decoded :=
  match w.getLsbD 11, w.getLsbD 10, w.getLsbD 9, w.getLsbD 8 with
  | false, false, false, false => .instr (.ldr (fieldLow w) (fieldMid w))
  | false, false, true, false => .instr (.ldrio (fieldLow w) (fieldMid w))
  | false, true, false, false => .instr (.str (fieldLow w) (fieldMid w))
  | false, true, true, false => .instr (.strio (fieldLow w) (fieldMid w))
  | true, false, save, false => .instr (.jmr save (fieldLow w) (fieldMid w))
  | true, true, _, _ => .instr (.jmi (fieldLow w) (fieldImm6 w))
  | false, _, _, true => .reserved .blankBit
  | true, false, _, true => .reserved .blankBit

/-- The rows of R70 under opcode 1111, by bits 11, 10, 9 and 8. -/
def decodeExtended (w : Word) : Decoded :=
  match w.getLsbD 11, w.getLsbD 10, w.getLsbD 9, w.getLsbD 8 with
  | false, false, false, false => .instr (.cmr (fieldLow w) (fieldMid w))
  | false, false, false, true => .reserved .blankBit
  | false, false, true, _ => .instr (.cmi (fieldImm5 w) (fieldLow w))
  | false, true, false, _ => .instr (.brc (fieldImm5 w) (fieldLow w))
  | false, true, true, _ => .instr (.brr (fieldImm5 w) (fieldLow w))
  | true, false, la, _ => .instr (.shi (shiftKindOf la) (fieldLow w) (fieldImm5 w))
  | true, true, false, c => .instr (.ntr (complementOf c) (fieldLow w) (fieldMid w))
  | true, true, true, c =>
    if fieldMid w = 0#4 then .instr (.ntd (complementOf c) (fieldLow w)) else .reserved .blankBit

/-- R70: decoding a 16-bit word by its primary opcode and its further bits. -/
def decode (w : Word) : Decoded :=
  match (fieldOpcode w).toNat with
  | 0 => .reserved .opcode
  | 1 => .reserved .opcode
  | 2 => decodeMemJump w
  | 3 => .instr (.anr (fieldLow w) (fieldHigh w) (fieldMid w))
  | 4 => .instr (.ani (fieldLow w) (fieldImm8 w))
  | 5 => .instr (.msi (fieldLow w) (fieldImm8 w))
  | 6 => .instr (.mhi (fieldLow w) (fieldImm8 w))
  | 7 => .instr (.slr (fieldLow w) (fieldHigh w) (fieldMid w))
  | 8 => .instr (.sar (fieldLow w) (fieldHigh w) (fieldMid w))
  | 9 => .instr (.add (fieldLow w) (fieldHigh w) (fieldMid w))
  | 10 => .instr (.sub (fieldLow w) (fieldHigh w) (fieldMid w))
  | 11 => .instr (.adi (fieldLow w) (fieldImm8 w))
  | 12 => .instr (.sui (fieldLow w) (fieldImm8 w))
  | 13 => .instr (.mul (fieldLow w) (fieldHigh w) (fieldMid w))
  | 14 => .instr (.div (fieldLow w) (fieldHigh w) (fieldMid w))
  | _ => decodeExtended w

/-- The word of an instruction, by the layouts of R62 to R68; the unused bits are written as zeros (R72). -/
def encode (i : Instr) : Word :=
  match i with
  | .ldr rd rs1 => 0b00100000#8 ++ rs1 ++ rd
  | .ldrio rd rs1 => 0b00100010#8 ++ rs1 ++ rd
  | .str rd rs1 => 0b00100100#8 ++ rs1 ++ rd
  | .strio rd rs1 => 0b00100110#8 ++ rs1 ++ rd
  | .jmr save rd rs1 => 0b001010#6 ++ BitVec.ofBool save ++ 0#1 ++ rs1 ++ rd
  | .jmi rd imm => 0b001011#6 ++ imm ++ rd
  | .anr rd rs1 rs2 => 0b0011#4 ++ rs1 ++ rs2 ++ rd
  | .ani rd imm => 0b0100#4 ++ imm ++ rd
  | .msi rd imm => 0b0101#4 ++ imm ++ rd
  | .mhi rd imm => 0b0110#4 ++ imm ++ rd
  | .slr rd rs1 rs2 => 0b0111#4 ++ rs1 ++ rs2 ++ rd
  | .sar rd rs1 rs2 => 0b1000#4 ++ rs1 ++ rs2 ++ rd
  | .add rd rs1 rs2 => 0b1001#4 ++ rs1 ++ rs2 ++ rd
  | .sub rd rs1 rs2 => 0b1010#4 ++ rs1 ++ rs2 ++ rd
  | .adi rd imm => 0b1011#4 ++ imm ++ rd
  | .sui rd imm => 0b1100#4 ++ imm ++ rd
  | .mul rd rs1 rs2 => 0b1101#4 ++ rs1 ++ rs2 ++ rd
  | .div rd rs1 rs2 => 0b1110#4 ++ rs1 ++ rs2 ++ rd
  | .cmr rs1 rs2 => 0b11110000#8 ++ rs2 ++ rs1
  | .cmi imm rs1 => 0b1111001#7 ++ imm ++ rs1
  | .brc fib rd => 0b1111010#7 ++ fib ++ rd
  | .brr fib rd => 0b1111011#7 ++ fib ++ rd
  | .shi kind rd shimm => 0b111110#6 ++ BitVec.ofBool (laBit kind) ++ shimm ++ rd
  | .ntr c rd rs1 => 0b1111110#7 ++ BitVec.ofBool (complementBit c) ++ rs1 ++ rd
  | .ntd c rd => 0b1111111#7 ++ BitVec.ofBool (complementBit c) ++ 0#4 ++ rd

/-- The instruction word of the table's bits: every instruction is one word (R60), bit 0 its least significant bit,
and bits above `nbits` are zero. -/
def tableWord (nbits w : Nat) : Word := BitVec.ofNat 16 (w % 2 ^ nbits)

/-- What the decoder reads from a word numbered as spec/opcode_table.json numbers it; none where it refuses. -/
def decodeTableWord (nbits w : Nat) : Option Instr :=
  match decode (tableWord nbits w) with
  | .instr i => some i
  | .reserved _ => none

end Sys2Proof
end

