-- ==== Sys2Proof/Config.lean ====
section
/-!
DEFINITION. What the spec leaves open: the parameters of spec/00_scope.md R6 as constants without a body, which no
proof can look into, and the values the model names for what the spec gives no reset value.
-/

namespace Sys2Proof

/-- One access to the I/O space in the run's event history, with its address and value (spec/20_memory.md R44). -/
inductive IoEvent where
  | read (addr value : Word)
  | write (addr value : Word)
  deriving DecidableEq, Repr

/-- `FIB_eval(fib, G, L, E)`: a total function of exactly these four arguments, coding not given
(spec/45_compare_branch.md R163, D19; log entry 10). -/
opaque Config.fibEval (fib : BitVec 5) (g l e : Bool) : Bool

/-- `CMP_SIGNED`: whether CMR and CMI compare signed numbers (R160, D17; log entry 11). -/
opaque Config.cmpSigned : Bool

/-- `MUL_SIGNED`: whether MUL multiplies signed numbers (R144, D17; log entry 11). -/
opaque Config.mulSigned : Bool

/-- `DIV_SIGNED`: whether DIV divides signed numbers (R145, D17; log entry 11). -/
opaque Config.divSigned : Bool

/-- `IO_read(history, addr)`: the value an I/O read draws, free for every history and address
(spec/00_scope.md R6, D6; log entry 9). -/
opaque Config.ioRead (history : List IoEvent) (addr : Word) : Word

/-- `RESET_PC` (R221). DESIGN CHOICE, unsafe: the spec gives no value (log entry 3). -/
def Config.resetPc : Word := 0x0000

/-- The value of every general register at reset. DESIGN CHOICE, unsafe: the spec gives none (R23; log entry 1). -/
def Config.resetReg : Word := 0x0000

/-- The value of each of G, L and E at reset. DESIGN CHOICE, unsafe: the spec gives none (R31; log entry 2). -/
def Config.resetFlag : Bool := false

/-- What a memory cell that is not listed reads as. DESIGN CHOICE, unsafe: the launch content of memory is not given
(R42; log entry 4). Every total map of the 65536 cells is some list of cells, so a statement over all states is over
all launch contents. -/
def Config.unlistedCell : Word := 0x0000

end Sys2Proof
end

