-- ==== Sys2Proof/Machine/State.lean ====
section
/-!
DEFINITION. The whole state of the machine (spec/10_state.md R36 and the launch record of
spec/70_reset_and_hazards.md R228), its value at reset, and the reasons a step can stop.
-/

namespace Sys2Proof.Machine

/-- The memory space: pairs of a cell's address and its 16-bit value (R41, R42), addresses rising, no pair equal to what
an unlisted cell reads as. The cell is the spec's smallest addressable unit: there is no byte address
(R41; log entry 16). -/
abbrev Memory := List (Nat × Word)

/-- The program text PROG: pairs of an address and an instruction word, addresses rising (R45). An address that is not
listed is outside its domain. -/
abbrev ProgramText := List (Nat × Word)

/-- The state of the machine. -/
structure State where
  /-- `x[0]` to `x[15]` (R20). -/
  regs : Vector Word 16
  /-- The address of the instruction being executed (R24, R25). -/
  pc : Word
  /-- The flag "greater" (R28). -/
  g : Bool
  /-- The flag "less" (R28). -/
  l : Bool
  /-- The flag "equal" (R28). -/
  e : Bool
  /-- The memory space (R42). -/
  mem : Memory
  /-- The event history of the I/O space, oldest event first (R44). -/
  io : List IoEvent
  /-- The program text, which no instruction changes (R45). -/
  prog : ProgramText
  /-- The end-of-run address END_PC where the launch gives one (R226; log entry 7). -/
  endPc : Option Word
  deriving DecidableEq, Repr

/-- The model faults of spec/60_exceptions.md R200: points where the spec gives the machine no meaning. Each is safe: the
model stops where the hardware does something unknown. -/
inductive Fault where
  /-- Raised by fetch when the pc is outside PROG (R46). Safe. -/
  | fetchOutsideProgram (pc : Word)
  /-- Raised by decode on a word reserved by R71 or R72. Safe. -/
  | reservedInstruction (pc word : Word)
  /-- Raised by LDR and STR when the data address lies in the domain of PROG (R45). Safe. -/
  | codeAccess (pc addr : Word)
  /-- Raised by DIV when the divisor is zero (R145). Safe. -/
  | divideByZero (pc : Word)
  /-- Raised by DIV for -32768 / -1 when DIV_SIGNED (R145). Safe. -/
  | divideOverflow (pc : Word)
  deriving DecidableEq, Repr

/-- Reasons for which a step has no meaning. -/
inductive Refusal where
  /-- Raised by exec for an instruction that has no meaning yet; no arm of exec answers so. Safe. -/
  | notModelled (mnemonic : String)
  /-- Raised by step when the pc is END_PC: the run is over, and the word there is never fetched (R226). Safe: the
  hardware goes on and the model says nothing of it (log entry 7). -/
  | runOver (pc : Word)
  deriving DecidableEq, Repr

/-- The state right after reset: the spec states no reset value for anything (R220), so the values are those that
log entries 1 to 4 and 7 to 9 name, with no program placed. -/
def State.reset : State where
  regs := Vector.replicate 16 Config.resetReg
  pc := Config.resetPc
  g := Config.resetFlag
  l := Config.resetFlag
  e := Config.resetFlag
  mem := []
  io := []
  prog := []
  endPc := none

end Sys2Proof.Machine
end

