-- ==== Sys2Proof/Machine/Ops.lean ====
section
/-!
DEFINITION. The named operations over registers, pc, flags, memory, I/O and program text (spec/00_scope.md R9) and the
ways an instruction ends. SAYAC has no exception entry and no return from exception (spec/60_exceptions.md R201, R205,
R206): what the spec raises is a model fault, `raise`, which transfers no control.
-/

namespace Sys2Proof.Machine

/-- What an instruction or a step answers. -/
abbrev Result := Host.Outcome State Fault Refusal

/-! ### Lists of cells -/

/-- The value listed at an address, if any. -/
def cellsLookup (m : List (Nat × Word)) (a : Nat) : Option Word :=
  match m with
  | [] => none
  | (b, v) :: rest => if b = a then some v else cellsLookup rest a

/-- The list without the cells at an address. -/
def cellsErase (m : List (Nat × Word)) (a : Nat) : List (Nat × Word) :=
  match m with
  | [] => []
  | (b, v) :: rest => if b = a then cellsErase rest a else (b, v) :: cellsErase rest a

/-- The list with a cell put before the first higher address. -/
def cellsInsert (m : List (Nat × Word)) (a : Nat) (v : Word) : List (Nat × Word) :=
  match m with
  | [] => [(a, v)]
  | (b, u) :: rest => if a < b then (a, v) :: (b, u) :: rest else (b, u) :: cellsInsert rest a v

/-- Addresses strictly rise and lie in the 16-bit address space (R41). -/
abbrev cellsRising (m : List (Nat × Word)) : Prop :=
  m.Pairwise (fun c d => c.1 < d.1) ∧ ∀ c ∈ m, c.1 < 65536

/-! ### The memory space (R42) -/

/-- `MemRead(a, 1)`: the one 16-bit cell at an address. -/
def Memory.read (m : Memory) (a : Word) : Word :=
  (cellsLookup m a.toNat).getD Config.unlistedCell

/-- `MemWrite(a, 1, v)`: replaces one cell, keeping the canonical form. -/
def Memory.write (m : Memory) (a v : Word) : Memory :=
  if v = Config.unlistedCell then cellsErase m a.toNat else cellsInsert (cellsErase m a.toNat) a.toNat v

/-- The canonical form: addresses rising, no cell equal to what an unlisted cell reads as. -/
abbrev Memory.wf (m : Memory) : Prop :=
  cellsRising m ∧ ∀ c ∈ m, c.2 ≠ Config.unlistedCell

/-- The cell of the memory space at an address. -/
def readMem (s : State) (a : Word) : Word := s.mem.read a

/-- The state with one cell of the memory space replaced. -/
def writeMem (s : State) (a v : Word) : State := { s with mem := s.mem.write a v }

/-! ### The program text (R45, R46) -/

/-- `Fetch(a)`: the instruction word at an address, none outside the domain of PROG. -/
def ProgramText.fetch (p : ProgramText) (a : Word) : Option Word := cellsLookup p a.toNat

/-- The program text with one word placed by a launch (R228; no instruction does this). -/
def ProgramText.place (p : ProgramText) (a w : Word) : ProgramText :=
  cellsInsert (cellsErase p a.toNat) a.toNat w

/-- The canonical form of a program text. -/
abbrev ProgramText.wf (p : ProgramText) : Prop := cellsRising p

/-- The word step fetches: the one at the pc. -/
def fetchWord (s : State) : Option Word := s.prog.fetch s.pc

/-- Whether an address lies in the domain of PROG. -/
def inProgram (s : State) (a : Word) : Bool := (s.prog.fetch a).isSome

/-- A launch's load of the next instruction: the word placed at the pc, which is then no end of run
(R226: END_PC is not in the domain of PROG; log entry 8). -/
def placeNext (s : State) (w : Word) : State :=
  { s with
    prog := s.prog.place s.pc w
    endPc := if s.endPc = some s.pc then none else s.endPc }

/-- The run is over when the pc is END_PC (R226). -/
def runIsOver (s : State) : Bool := decide (s.endPc = some s.pc)

/-! ### Registers, pc, flags -/

/-- `x[r]`: every register is ordinary (R21). -/
def readReg (s : State) (r : RegIdx) : Word := s.regs[r.toNat]'(r.isLt)

/-- `x[r] <- v`. -/
def writeReg (s : State) (r : RegIdx) (v : Word) : State :=
  { s with regs := s.regs.set r.toNat v r.isLt }

/-- `pc <- t`. -/
def setPc (s : State) (t : Word) : State := { s with pc := t }

/-- The address of the next instruction in memory, `pc + 1` modulo 65536 (R24, R25). -/
def nextPc (s : State) : Word := s.pc + 1

/-- Writes all three flags at once (R29). -/
def setFlags (s : State) (g l e : Bool) : State := { s with g := g, l := l, e := e }

/-! ### The I/O space (R43, R44) -/

/-- `IORead(a)`: the drawn value, and the state with the read recorded. -/
def ioRead (s : State) (a : Word) : Word × State :=
  (Config.ioRead s.io a, { s with io := s.io ++ [.read a (Config.ioRead s.io a)] })

/-- `IOWrite(a, v)`: recorded as an event, changing nothing else. -/
def ioWrite (s : State) (a v : Word) : State := { s with io := s.io ++ [.write a v] }

/-! ### How an instruction ends -/

/-- `raise`: a model fault stops the run; it never changes the pc of the machine (R200). -/
def raise (f : Fault) : Result := .fault f

/-- The next state at a given pc. -/
def endAt (s : State) (t : Word) : Result := .next (setPc s t)

/-- The default end: `pc <- pc + 1` (R12). -/
def advance (s : State) : Result := endAt s (nextPc s)

/-- `x[rd] <- v`, then the default end. -/
def writeBack (rd : RegIdx) (v : Word) (s : State) : Result := advance (writeReg s rd v)

/-- A memory-form data access: refused inside the program text (R45). -/
def dataAccess (s : State) (a : Word) (r : Result) : Result :=
  if inProgram s a then raise (.codeAccess s.pc a) else r

end Sys2Proof.Machine
end

