-- ==== Sys2Proof/Machine/Operands.lean ====
section
/-!
DEFINITION. Operand forms: how an immediate is widened (spec/30_encoding.md R69), how a 5-bit shift amount is taken and
read (spec/43_shift_registered.md R130).
-/

namespace Sys2Proof.Machine

/-- `zext_16` (R8, R69): zeros above. -/
def zext16 {n : Nat} (v : BitVec n) : Word := v.setWidth 16

/-- `sext_16` (R8, R69): copies of the top bit above. -/
def sext16 {n : Nat} (v : BitVec n) : Word := v.signExtend 16

/-- Bits 7:0 of a value, which MHI keeps (R123). -/
def lowByte (v : Word) : BitVec 8 := v.extractLsb' 0 8

/-- Bits 4:0 of a register value, the amount of SLR and SAR (R132, R133). -/
def amountOf (v : Word) : BitVec 5 := v.extractLsb' 0 5

/-- The signed reading of an amount in two's complement, -16 to 15 (R130, the spec's decision D13; log entry 17). -/
def signedAmount (a : BitVec 5) : Int := a.toInt

end Sys2Proof.Machine
end

