-- ==== Sys2Proof/Machine/Flags.lean ====
section
/-!
DEFINITION. The flag computations: `Compare` (spec/45_compare_branch.md R160) and the branch condition (R163).
-/

namespace Sys2Proof.Machine

/-- `va > vb` under a signedness (R160). -/
def isGreater (signed : Bool) (a b : Word) : Bool :=
  if signed then decide (b.toInt < a.toInt) else decide (b.toNat < a.toNat)

/-- `va < vb` under a signedness (R160). -/
def isLess (signed : Bool) (a b : Word) : Bool :=
  if signed then decide (a.toInt < b.toInt) else decide (a.toNat < b.toNat)

/-- `va = vb`, which does not depend on the signedness (R160). -/
def isEqual (a b : Word) : Bool := decide (a = b)

/-- The state after `Compare(a, b)` with a given signedness: all three flags are written (the spec's decision D16;
log entry 18). -/
def compareWith (signed : Bool) (s : State) (a b : Word) : State :=
  setFlags s (isGreater signed a b) (isLess signed a b) (isEqual a b)

/-- `Compare(a, b)` of the hardware. -/
def compareWords (s : State) (a b : Word) : State := compareWith Config.cmpSigned s a b

/-- The truth of the flag interpretation bits in a state (R163). -/
def conditionHolds (s : State) (fib : BitVec 5) : Bool := Config.fibEval fib s.g s.l s.e

end Sys2Proof.Machine
end

