-- ==== Sys2Proof/Machine/Arith.lean ====
section
/-!
DEFINITION. Integer arithmetic (spec/44_arithmetic.md R140 to R147). Sums and differences are modulo 65536 (R146).
-/

namespace Sys2Proof.Machine

/-- Bits 31:16 of the exact 32-bit product under a signedness (R144). -/
def mulHigh (signed : Bool) (a b : Word) : Word :=
  if signed then (BitVec.ofInt 32 (a.toInt * b.toInt)).extractLsb' 16 16
  else (BitVec.ofNat 32 (a.toNat * b.toNat)).extractLsb' 16 16

/-- The integer portion of the quotient under a signedness: truncation toward zero (R145). -/
def quotient (signed : Bool) (a b : Word) : Word :=
  if signed then BitVec.ofInt 16 (a.toInt.tdiv b.toInt) else BitVec.ofNat 16 (a.toNat / b.toNat)

/-- -32768 / -1 in the signed reading (R145). -/
def quotientOverflows (signed : Bool) (a b : Word) : Bool :=
  decide (a = 0x8000#16) && decide (b = 0xFFFF#16) && signed

/-- R140: ADD. -/
def execAdd (rd rs1 rs2 : RegIdx) (s : State) : Result :=
  writeBack rd (readReg s rs1 + readReg s rs2) s

/-- R141: SUB. -/
def execSub (rd rs1 rs2 : RegIdx) (s : State) : Result :=
  writeBack rd (readReg s rs1 - readReg s rs2) s

/-- R142: ADI. -/
def execAdi (rd : RegIdx) (imm : BitVec 8) (s : State) : Result :=
  writeBack rd (readReg s rd + sext16 imm) s

/-- R143: SUI. -/
def execSui (rd : RegIdx) (imm : BitVec 8) (s : State) : Result :=
  writeBack rd (readReg s rd - sext16 imm) s

/-- R144: MUL; the low half of the product is written nowhere. -/
def execMul (rd rs1 rs2 : RegIdx) (s : State) : Result :=
  writeBack rd (mulHigh Config.mulSigned (readReg s rs1) (readReg s rs2)) s

/-- DIV under a signedness (R145): the two model faults first, then the quotient. -/
def divideWith (signed : Bool) (rd : RegIdx) (a b : Word) (s : State) : Result :=
  if b = 0#16 then raise (.divideByZero s.pc)
  else if quotientOverflows signed a b then raise (.divideOverflow s.pc)
  else writeBack rd (quotient signed a b) s

/-- R145: DIV; the remainder is written nowhere. -/
def execDiv (rd rs1 rs2 : RegIdx) (s : State) : Result :=
  divideWith Config.divSigned rd (readReg s rs1) (readReg s rs2) s

end Sys2Proof.Machine
end

