-- ==== Sys2Proof/Machine/CompareBranch.lean ====
section
/-!
DEFINITION. Compares and conditional branches (spec/45_compare_branch.md R160 to R165).
-/

namespace Sys2Proof.Machine

/-- R161: CMR; G means that `rs2` is greater than `rs1`. -/
def execCmr (rs1 rs2 : RegIdx) (s : State) : Result :=
  advance (compareWords s (readReg s rs2) (readReg s rs1))

/-- R162: CMI; G means that the immediate is greater than the register. -/
def execCmi (imm : BitVec 5) (rs1 : RegIdx) (s : State) : Result :=
  advance (compareWords s (sext16 imm) (readReg s rs1))

/-- R164: BRC; the target is absolute. -/
def execBrc (fib : BitVec 5) (rd : RegIdx) (s : State) : Result :=
  endAt s (if conditionHolds s fib then readReg s rd else nextPc s)

/-- R165: BRR; the offset is relative to the branch itself. -/
def execBrr (fib : BitVec 5) (rd : RegIdx) (s : State) : Result :=
  endAt s (if conditionHolds s fib then s.pc + readReg s rd else nextPc s)

end Sys2Proof.Machine
end

