-- ==== Sys2Proof/Machine/Complement.lean ====
section
/-!
DEFINITION. One's and two's complement (spec/46_shift_imm_not.md R181, R182).
-/

namespace Sys2Proof.Machine

/-- The complement of a value: each bit inverted, or the negation modulo 65536 (R181). -/
def complement (c : Complement) (v : Word) : Word :=
  match c with
  | .ones => ~~~v
  | .twos => ~~~v + 1

/-- R181: NTR. -/
def execNtr (c : Complement) (rd rs1 : RegIdx) (s : State) : Result :=
  writeBack rd (complement c (readReg s rs1)) s

/-- R182: NTD. -/
def execNtd (c : Complement) (rd : RegIdx) (s : State) : Result :=
  writeBack rd (complement c (readReg s rd)) s

end Sys2Proof.Machine
end

