-- ==== Sys2Proof/Machine/Jump.lean ====
section
/-!
DEFINITION. Unconditional jumps (spec/41_jump.md R110, R111). The target and the saved address are computed from the
state before the instruction (spec/00_scope.md R10).
-/

namespace Sys2Proof.Machine

/-- R110: JMR; with S = 0 the `rd` field is ignored. -/
def execJmr (save : Bool) (rd rs1 : RegIdx) (s : State) : Result :=
  endAt (if save then writeReg s rd (nextPc s) else s) (s.pc + readReg s rs1)

/-- R111: JMI; the return address is always saved. -/
def execJmi (rd : RegIdx) (imm : BitVec 6) (s : State) : Result :=
  endAt (writeReg s rd (nextPc s)) (s.pc + sext16 imm)

end Sys2Proof.Machine
end

