-- ==== Sys2Proof/Machine/LoadStore.lean ====
section
/-!
DEFINITION. Loads and stores (spec/40_load_store.md R100 to R103).
-/

namespace Sys2Proof.Machine

/-- R100: LDR. -/
def execLdr (rd rs1 : RegIdx) (s : State) : Result :=
  dataAccess s (readReg s rs1) (writeBack rd (readMem s (readReg s rs1)) s)

/-- R101: LDRio. -/
def execLdrio (rd rs1 : RegIdx) (s : State) : Result :=
  writeBack rd (ioRead s (readReg s rs1)).1 (ioRead s (readReg s rs1)).2

/-- R102: STR; `rd` holds the address, `rs1` the data. -/
def execStr (rd rs1 : RegIdx) (s : State) : Result :=
  dataAccess s (readReg s rd) (advance (writeMem s (readReg s rd) (readReg s rs1)))

/-- R103: STRio; `rd` holds the address, `rs1` the data. -/
def execStrio (rd rs1 : RegIdx) (s : State) : Result :=
  advance (ioWrite s (readReg s rd) (readReg s rs1))

end Sys2Proof.Machine
end

