-- ==== Sys2Proof/Machine/LogicMove.lean ====
section
/-!
DEFINITION. Logical AND and immediate moves (spec/42_logic_move.md R120 to R123).
-/

namespace Sys2Proof.Machine

/-- R120: ANR. -/
def execAnr (rd rs1 rs2 : RegIdx) (s : State) : Result :=
  writeBack rd (readReg s rs1 &&& readReg s rs2) s

/-- R121: ANI; the immediate's high byte is zero. -/
def execAni (rd : RegIdx) (imm : BitVec 8) (s : State) : Result :=
  writeBack rd (readReg s rd &&& zext16 imm) s

/-- R122: MSI; the old value of `rd` is not read. -/
def execMsi (rd : RegIdx) (imm : BitVec 8) (s : State) : Result :=
  writeBack rd (sext16 imm) s

/-- R123: MHI; bits 7:0 of `rd` are kept. -/
def execMhi (rd : RegIdx) (imm : BitVec 8) (s : State) : Result :=
  writeBack rd (imm ++ lowByte (readReg s rd)) s

end Sys2Proof.Machine
end

