-- ==== Sys2Proof/Machine/Shift.lean ====
section
/-!
DEFINITION. Shifts by a register and by an immediate (spec/43_shift_registered.md R130 to R133,
spec/46_shift_imm_not.md R180).
-/

namespace Sys2Proof.Machine

/-- `lsr` and `asr` of R131: zeros or copies of bit 15 enter at the top. -/
def shiftRight (kind : ShiftKind) (v : Word) (n : Nat) : Word :=
  match kind with
  | .logical => v >>> n
  | .arithmetic => v.sshiftRight n

/-- `shl` of R131: zeros enter at bit 0, for either kind. -/
def shiftLeft (v : Word) (n : Nat) : Word := v <<< n

/-- `Shift(kind, v, a)` of R131: a positive amount shifts right, a negative one left (R130). -/
def shift (kind : ShiftKind) (v : Word) (a : BitVec 5) : Word :=
  if 0 ≤ signedAmount a then shiftRight kind v (signedAmount a).toNat
  else shiftLeft v (-signedAmount a).toNat

/-- R132: SLR. -/
def execSlr (rd rs1 rs2 : RegIdx) (s : State) : Result :=
  writeBack rd (shift .logical (readReg s rs1) (amountOf (readReg s rs2))) s

/-- R133: SAR. -/
def execSar (rd rs1 rs2 : RegIdx) (s : State) : Result :=
  writeBack rd (shift .arithmetic (readReg s rs1) (amountOf (readReg s rs2))) s

/-- R180: SHI. -/
def execShi (kind : ShiftKind) (rd : RegIdx) (shimm : BitVec 5) (s : State) : Result :=
  writeBack rd (shift kind (readReg s rd) shimm) s

end Sys2Proof.Machine
end

