-- ==== Sys2Proof/Machine/Dispatch.lean ====
section
/-!
DEFINITION. The meaning of every instruction, one arm each.
-/

namespace Sys2Proof.Machine

/-- What executing an instruction answers (spec/30_encoding.md R70 names the rule of each). -/
def exec (i : Instr) (s : State) : Host.Outcome State Fault Refusal :=
  match i with
  | .ldr rd rs1 => Sys2Proof.Machine.execLdr rd rs1 s
  | .ldrio rd rs1 => Sys2Proof.Machine.execLdrio rd rs1 s
  | .str rd rs1 => Sys2Proof.Machine.execStr rd rs1 s
  | .strio rd rs1 => Sys2Proof.Machine.execStrio rd rs1 s
  | .jmr save rd rs1 => Sys2Proof.Machine.execJmr save rd rs1 s
  | .jmi rd imm => Sys2Proof.Machine.execJmi rd imm s
  | .anr rd rs1 rs2 => Sys2Proof.Machine.execAnr rd rs1 rs2 s
  | .ani rd imm => Sys2Proof.Machine.execAni rd imm s
  | .msi rd imm => Sys2Proof.Machine.execMsi rd imm s
  | .mhi rd imm => Sys2Proof.Machine.execMhi rd imm s
  | .slr rd rs1 rs2 => Sys2Proof.Machine.execSlr rd rs1 rs2 s
  | .sar rd rs1 rs2 => Sys2Proof.Machine.execSar rd rs1 rs2 s
  | .add rd rs1 rs2 => Sys2Proof.Machine.execAdd rd rs1 rs2 s
  | .sub rd rs1 rs2 => Sys2Proof.Machine.execSub rd rs1 rs2 s
  | .adi rd imm => Sys2Proof.Machine.execAdi rd imm s
  | .sui rd imm => Sys2Proof.Machine.execSui rd imm s
  | .mul rd rs1 rs2 => Sys2Proof.Machine.execMul rd rs1 rs2 s
  | .div rd rs1 rs2 => Sys2Proof.Machine.execDiv rd rs1 rs2 s
  | .cmr rs1 rs2 => Sys2Proof.Machine.execCmr rs1 rs2 s
  | .cmi imm rs1 => Sys2Proof.Machine.execCmi imm rs1 s
  | .brc fib rd => Sys2Proof.Machine.execBrc fib rd s
  | .brr fib rd => Sys2Proof.Machine.execBrr fib rd s
  | .shi kind rd shimm => Sys2Proof.Machine.execShi kind rd shimm s
  | .ntr c rd rs1 => Sys2Proof.Machine.execNtr c rd rs1 s
  | .ntd c rd => Sys2Proof.Machine.execNtd c rd s

end Sys2Proof.Machine
end

