-- ==== Sys2Proof/Machine/Step.lean ====
section
/-!
DEFINITION. One step (spec/00_scope.md R11): the end of the run (spec/70_reset_and_hazards.md R226), fetch
(spec/20_memory.md R46), decode (spec/30_encoding.md R70), then the instruction's rule, in the order of
spec/60_exceptions.md R204.
-/

namespace Sys2Proof.Machine

/-- One step of the core. -/
def step (s : State) : Host.Outcome State Fault Refusal :=
  if runIsOver s then .refused (.runOver s.pc)
  else
    match fetchWord s with
    | none => raise (.fetchOutsideProgram s.pc)
    | some w =>
      match decode w with
      | .reserved _ => raise (.reservedInstruction s.pc w)
      | .instr i => exec i s

/-- The state with one instruction word, numbered as spec/opcode_table.json numbers its bits, loaded at the pc: a word of
PROG, which only a launch places (R45, R228; log entry 8). -/
def State.withFetchWord (s : State) (nbits w : Nat) : State := placeNext s (tableWord nbits w)

end Sys2Proof.Machine
end

