-- ==== Sys2Proof/Machine/Listing.lean ====
section
/-!
DEFINITION. Assembler statements (spec/30_encoding.md R74 to R78): a mnemonic and its operands in the order of the
source's syntax lines, how an instruction is written as one, and which instruction a statement names. Statements are
notation only: no step of the machine reads one.
-/

namespace Sys2Proof.Machine

/-- The two word formats of R60 and R74. -/
inductive WordFormat where
  | rType
  | iType
  deriving DecidableEq, Repr

/-- The mnemonics of R76 and R77, the summary's two other spellings ADR and SUR among them (R76). -/
inductive Mnemonic where
  | LDR | LDRio | STR | STRio | JMR | JMRs | JMI | ANR | ANI | MSI | MHI | SLR | SAR
  | ADD | ADR | SUB | SUR | ADI | SUI | MUL | DIV | CMR | CMI | BRC | BRR
  | SHIl | SHIa | NTR | NTR2 | NTD | NTD2
  deriving DecidableEq, Repr

/-- How a mnemonic is spelled in the spec's listings (R77, the spec's decision D24). -/
def Mnemonic.spelling (m : Mnemonic) : String :=
  match m with
  | .LDR => "LDR" | .LDRio => "LDRio" | .STR => "STR" | .STRio => "STRio"
  | .JMR => "JMR" | .JMRs => "JMR.s" | .JMI => "JMI"
  | .ANR => "ANR" | .ANI => "ANI" | .MSI => "MSI" | .MHI => "MHI" | .SLR => "SLR" | .SAR => "SAR"
  | .ADD => "ADD" | .ADR => "ADR" | .SUB => "SUB" | .SUR => "SUR" | .ADI => "ADI" | .SUI => "SUI"
  | .MUL => "MUL" | .DIV => "DIV" | .CMR => "CMR" | .CMI => "CMI" | .BRC => "BRC" | .BRR => "BRR"
  | .SHIl => "SHI.l" | .SHIa => "SHI.a" | .NTR => "NTR" | .NTR2 => "NTR.2" | .NTD => "NTD" | .NTD2 => "NTD.2"

/-- An operand: a register by its decimal index, or a literal (R75). -/
inductive AsmOperand where
  | reg (n : Nat)
  | lit (n : Int)
  deriving DecidableEq, Repr

/-- One statement (R75). -/
structure AsmStatement where
  mnemonic : Mnemonic
  operands : List AsmOperand
  deriving DecidableEq, Repr

/-- The statement of an instruction in the spec's spelling: raw immediates, but signed for JMI and SHI (R76 to R78). -/
def statementOf (i : Instr) : AsmStatement :=
  match i with
  | .ldr rd rs1 => ⟨.LDR, [.reg rd.toNat, .reg rs1.toNat]⟩
  | .ldrio rd rs1 => ⟨.LDRio, [.reg rd.toNat, .reg rs1.toNat]⟩
  | .str rd rs1 => ⟨.STR, [.reg rd.toNat, .reg rs1.toNat]⟩
  | .strio rd rs1 => ⟨.STRio, [.reg rd.toNat, .reg rs1.toNat]⟩
  | .jmr save rd rs1 => ⟨if save then .JMRs else .JMR, [.reg rd.toNat, .reg rs1.toNat]⟩
  | .jmi rd imm => ⟨.JMI, [.reg rd.toNat, .lit imm.toInt]⟩
  | .anr rd rs1 rs2 => ⟨.ANR, [.reg rd.toNat, .reg rs1.toNat, .reg rs2.toNat]⟩
  | .ani rd imm => ⟨.ANI, [.reg rd.toNat, .lit imm.toNat]⟩
  | .msi rd imm => ⟨.MSI, [.reg rd.toNat, .lit imm.toNat]⟩
  | .mhi rd imm => ⟨.MHI, [.reg rd.toNat, .lit imm.toNat]⟩
  | .slr rd rs1 rs2 => ⟨.SLR, [.reg rd.toNat, .reg rs1.toNat, .reg rs2.toNat]⟩
  | .sar rd rs1 rs2 => ⟨.SAR, [.reg rd.toNat, .reg rs1.toNat, .reg rs2.toNat]⟩
  | .add rd rs1 rs2 => ⟨.ADD, [.reg rd.toNat, .reg rs1.toNat, .reg rs2.toNat]⟩
  | .sub rd rs1 rs2 => ⟨.SUB, [.reg rd.toNat, .reg rs1.toNat, .reg rs2.toNat]⟩
  | .adi rd imm => ⟨.ADI, [.reg rd.toNat, .lit imm.toNat]⟩
  | .sui rd imm => ⟨.SUI, [.reg rd.toNat, .lit imm.toNat]⟩
  | .mul rd rs1 rs2 => ⟨.MUL, [.reg rd.toNat, .reg rs1.toNat, .reg rs2.toNat]⟩
  | .div rd rs1 rs2 => ⟨.DIV, [.reg rd.toNat, .reg rs1.toNat, .reg rs2.toNat]⟩
  | .cmr rs1 rs2 => ⟨.CMR, [.reg rs1.toNat, .reg rs2.toNat]⟩
  | .cmi imm rs1 => ⟨.CMI, [.lit imm.toNat, .reg rs1.toNat]⟩
  | .brc fib rd => ⟨.BRC, [.lit fib.toNat, .reg rd.toNat]⟩
  | .brr fib rd => ⟨.BRR, [.lit fib.toNat, .reg rd.toNat]⟩
  | .shi .logical rd n => ⟨.SHIl, [.reg rd.toNat, .lit n.toInt]⟩
  | .shi .arithmetic rd n => ⟨.SHIa, [.reg rd.toNat, .lit n.toInt]⟩
  | .ntr .ones rd rs1 => ⟨.NTR, [.reg rd.toNat, .reg rs1.toNat]⟩
  | .ntr .twos rd rs1 => ⟨.NTR2, [.reg rd.toNat, .reg rs1.toNat]⟩
  | .ntd .ones rd => ⟨.NTD, [.reg rd.toNat]⟩
  | .ntd .twos rd => ⟨.NTD2, [.reg rd.toNat]⟩

/-- A register operand names one of `r0` to `r15` (R75, R61). -/
def asmReg (n : Nat) : Option RegIdx := if n < 16 then some (BitVec.ofNat 4 n) else none

/-- A literal in a range, as a field of `w` bits (R78). -/
def asmField (w : Nat) (lo hi n : Int) : Option (BitVec w) :=
  if lo ≤ n ∧ n ≤ hi then some (BitVec.ofInt w n) else none

/-- Three registers, the destination first. -/
def asmR3 (f : RegIdx → RegIdx → RegIdx → Instr) (d a b : Nat) : Option Instr :=
  match asmReg d, asmReg a, asmReg b with
  | some rd, some rs1, some rs2 => some (f rd rs1 rs2)
  | _, _, _ => none

/-- Two registers. -/
def asmR2 (f : RegIdx → RegIdx → Instr) (d a : Nat) : Option Instr :=
  match asmReg d, asmReg a with
  | some rd, some rs1 => some (f rd rs1)
  | _, _ => none

/-- A register and a field. -/
def asmRI {w : Nat} (f : RegIdx → BitVec w → Instr) (d : Nat) (v : Option (BitVec w)) : Option Instr :=
  match asmReg d, v with
  | some rd, some imm => some (f rd imm)
  | _, _ => none

/-- The instruction a statement names, none for one that names none. The literals are the raw fields or, for MSI, ADI,
SUI and CMI, also signed numbers (R78, the spec's decision D24); signed for JMI and SHI. -/
def assemble (t : AsmStatement) : Option Instr :=
  match t.mnemonic, t.operands with
  | .LDR, [.reg d, .reg a] => asmR2 .ldr d a
  | .LDRio, [.reg d, .reg a] => asmR2 .ldrio d a
  | .STR, [.reg d, .reg a] => asmR2 .str d a
  | .STRio, [.reg d, .reg a] => asmR2 .strio d a
  | .JMR, [.reg d, .reg a] => asmR2 (.jmr false) d a
  | .JMRs, [.reg d, .reg a] => asmR2 (.jmr true) d a
  | .JMI, [.reg d, .lit n] => asmRI .jmi d (asmField 6 (-32) 31 n)
  | .ANR, [.reg d, .reg a, .reg b] => asmR3 .anr d a b
  | .ANI, [.reg d, .lit n] => asmRI .ani d (asmField 8 0 255 n)
  | .MSI, [.reg d, .lit n] => asmRI .msi d (asmField 8 (-128) 255 n)
  | .MHI, [.reg d, .lit n] => asmRI .mhi d (asmField 8 0 255 n)
  | .SLR, [.reg d, .reg a, .reg b] => asmR3 .slr d a b
  | .SAR, [.reg d, .reg a, .reg b] => asmR3 .sar d a b
  | .ADD, [.reg d, .reg a, .reg b] => asmR3 .add d a b
  | .ADR, [.reg d, .reg a, .reg b] => asmR3 .add d a b
  | .SUB, [.reg d, .reg a, .reg b] => asmR3 .sub d a b
  | .SUR, [.reg d, .reg a, .reg b] => asmR3 .sub d a b
  | .ADI, [.reg d, .lit n] => asmRI .adi d (asmField 8 (-128) 255 n)
  | .SUI, [.reg d, .lit n] => asmRI .sui d (asmField 8 (-128) 255 n)
  | .MUL, [.reg d, .reg a, .reg b] => asmR3 .mul d a b
  | .DIV, [.reg d, .reg a, .reg b] => asmR3 .div d a b
  | .CMR, [.reg a, .reg b] => asmR2 .cmr a b
  | .CMI, [.lit n, .reg a] => asmRI (fun rs1 imm => .cmi imm rs1) a (asmField 5 (-16) 31 n)
  | .BRC, [.lit n, .reg d] => asmRI (fun rd fib => .brc fib rd) d (asmField 5 0 31 n)
  | .BRR, [.lit n, .reg d] => asmRI (fun rd fib => .brr fib rd) d (asmField 5 0 31 n)
  | .SHIl, [.reg d, .lit n] => asmRI (.shi .logical) d (asmField 5 (-16) 15 n)
  | .SHIa, [.reg d, .lit n] => asmRI (.shi .arithmetic) d (asmField 5 (-16) 15 n)
  | .NTR, [.reg d, .reg a] => asmR2 (.ntr .ones) d a
  | .NTR2, [.reg d, .reg a] => asmR2 (.ntr .twos) d a
  | .NTD, [.reg d] => (asmReg d).map (.ntd .ones)
  | .NTD2, [.reg d] => (asmReg d).map (.ntd .twos)
  | _, _ => none

/-- The word format of an instruction: the "spec" column of R74. -/
def wordFormat (i : Instr) : WordFormat :=
  match i with
  | .ldr _ _ | .ldrio _ _ | .str _ _ | .strio _ _ | .jmr _ _ _ => .rType
  | .anr _ _ _ | .slr _ _ _ | .sar _ _ _ => .rType
  | .add _ _ _ | .sub _ _ _ | .mul _ _ _ | .div _ _ _ => .rType
  | .cmr _ _ | .brc _ _ | .brr _ _ | .ntr _ _ _ | .ntd _ _ => .rType
  | .jmi _ _ | .ani _ _ | .msi _ _ | .mhi _ _ | .adi _ _ | .sui _ _ => .iType
  | .cmi _ _ | .shi _ _ _ => .iType

end Sys2Proof.Machine
end

