-- ==== Sys2Proof/Safety.lean ====
section
/-!
DEFINITION. The terms claims are stated in: the invariant of the launch record, the frames of an instruction, the tables
of spec/10_state.md (R22, R26), and the arithmetic of the rules on mathematical integers (spec/00_scope.md R8).
-/

namespace Sys2Proof.Safety

open Sys2Proof.Machine

/-! ### Invariants -/

/-- Memory and program text in canonical form, and END_PC outside the program text (R226). -/
abbrev Inv (s : State) : Prop :=
  s.mem.wf ∧ s.prog.wf ∧ s.endPc.all (fun a => !inProgram s a) = true

/-- Exactly one of G, L and E is 1 (R31, R160). -/
abbrev OneFlag (s : State) : Prop :=
  (s.g = true ∧ s.l = false ∧ s.e = false) ∨ (s.g = false ∧ s.l = true ∧ s.e = false) ∨
    (s.g = false ∧ s.l = false ∧ s.e = true)

/-! ### Frames: what is the same in `t` as in `s` -/

/-- Every register but one. -/
def SameRegsBut (s t : State) (rd : RegIdx) : Prop := ∀ r, r ≠ rd → readReg t r = readReg s r

/-- Every register. -/
def SameRegs (s t : State) : Prop := ∀ r, readReg t r = readReg s r

/-- The three flags. -/
def SameFlags (s t : State) : Prop := t.g = s.g ∧ t.l = s.l ∧ t.e = s.e

/-- Every cell of the memory space, read one by one. -/
def SameMemory (s t : State) : Prop := ∀ a, readMem t a = readMem s a

/-- Every cell of the memory space but one. -/
def SameMemoryBut (s t : State) (at_ : Word) : Prop := ∀ a, a ≠ at_ → readMem t a = readMem s a

/-- The I/O event history. -/
def SameIo (s t : State) : Prop := t.io = s.io

/-- What only a launch sets: the program text and END_PC. -/
def SameLaunch (s t : State) : Prop := t.prog = s.prog ∧ t.endPc = s.endPc

/-- Only `x[rd]` and the pc may differ. -/
def OnlyReg (s t : State) (rd : RegIdx) : Prop :=
  SameRegsBut s t rd ∧ SameFlags s t ∧ SameMemory s t ∧ SameIo s t ∧ SameLaunch s t

/-- Only the pc may differ. -/
def OnlyPc (s t : State) : Prop :=
  SameRegs s t ∧ SameFlags s t ∧ SameMemory s t ∧ SameIo s t ∧ SameLaunch s t

/-- Only the flags and the pc may differ. -/
def OnlyFlags (s t : State) : Prop := SameRegs s t ∧ SameMemory s t ∧ SameIo s t ∧ SameLaunch s t

/-- Only the memory cell at one address and the pc may differ. -/
def OnlyCell (s t : State) (at_ : Word) : Prop :=
  SameRegs s t ∧ SameFlags s t ∧ SameMemoryBut s t at_ ∧ SameIo s t ∧ SameLaunch s t

/-! ### Arithmetic of the rules on integers -/

/-- `trunc16(n)`: `n` modulo 65536 (R8, R9). -/
def trunc16 (n : Int) : Word := BitVec.ofInt 16 n

/-- The default advance, `pc + 1` modulo 65536 (R12, R25). -/
def PcAdvanced (s t : State) : Prop := t.pc.toNat = (s.pc.toNat + 1) % 65536

/-- `Shift(kind, v, a)` by the formulas of R130 and R131: with `a[4] = 0` a right shift by `a`, the floor of a division;
else a left shift by `32 - a`. -/
def shiftFormula (kind : ShiftKind) (v : Word) (a : BitVec 5) : Word :=
  if a.toNat < 16 then
    match kind with
    | .logical => trunc16 ((v.toNat : Int) / 2 ^ a.toNat)
    | .arithmetic => trunc16 (v.toInt / 2 ^ a.toNat)
  else trunc16 ((v.toNat : Int) * 2 ^ (32 - a.toNat))

/-- A value under a signedness: `signed(v)` or `unsigned(v)` (R8). -/
def valueOf (signed : Bool) (v : Word) : Int := if signed then v.toInt else (v.toNat : Int)

/-- `q` is the quotient of `a` by `b` truncated toward zero: what is left over is smaller than the divisor in magnitude
and does not have the sign opposite to the dividend's (R145). -/
def IsQuotient (a b q : Int) : Prop := (a - q * b).natAbs < b.natAbs ∧ 0 ≤ (a - q * b) * a

/-! ### The tables of spec/10_state.md -/

/-- The registers an instruction reads (R22). -/
def readsOf (i : Instr) : List RegIdx :=
  match i with
  | .ldr _ rs1 | .ldrio _ rs1 => [rs1]
  | .str rd rs1 | .strio rd rs1 => [rd, rs1]
  | .jmr _ _ rs1 => [rs1]
  | .jmi _ _ | .msi _ _ => []
  | .anr _ rs1 rs2 | .slr _ rs1 rs2 | .sar _ rs1 rs2 => [rs1, rs2]
  | .add _ rs1 rs2 | .sub _ rs1 rs2 | .mul _ rs1 rs2 | .div _ rs1 rs2 => [rs1, rs2]
  | .ani rd _ | .adi rd _ | .sui rd _ | .shi _ rd _ | .mhi rd _ => [rd]
  | .cmr rs1 rs2 => [rs1, rs2]
  | .cmi _ rs1 => [rs1]
  | .brc _ rd | .brr _ rd => [rd]
  | .ntr _ _ rs1 => [rs1]
  | .ntd _ rd => [rd]

/-- The registers an instruction writes (R22). -/
def writesOf (i : Instr) : List RegIdx :=
  match i with
  | .ldr rd _ | .ldrio rd _ => [rd]
  | .str _ _ | .strio _ _ => []
  | .jmr save rd _ => if save then [rd] else []
  | .jmi rd _ | .msi rd _ | .mhi rd _ => [rd]
  | .anr rd _ _ | .slr rd _ _ | .sar rd _ _ => [rd]
  | .add rd _ _ | .sub rd _ _ | .mul rd _ _ | .div rd _ _ => [rd]
  | .ani rd _ | .adi rd _ | .sui rd _ | .shi _ rd _ => [rd]
  | .cmr _ _ | .cmi _ _ | .brc _ _ | .brr _ _ => []
  | .ntr _ rd _ | .ntd _ rd => [rd]

/-- CMR and CMI, the writers of the flags (R29). -/
def isCompare (i : Instr) : Bool :=
  match i with
  | .cmr _ _ | .cmi _ _ => true
  | _ => false

/-- BRC and BRR, the readers of the flags (R30). -/
def isBranch (i : Instr) : Bool :=
  match i with
  | .brc _ _ | .brr _ _ => true
  | _ => false

/-- The next pc of an instruction (R26). -/
def nextPcOf (i : Instr) (s : State) : Word :=
  match i with
  | .jmr _ _ rs1 => trunc16 (s.pc.toNat + (readReg s rs1).toNat)
  | .jmi _ imm => trunc16 (s.pc.toNat + imm.toInt)
  | .brc fib rd =>
    if Config.fibEval fib s.g s.l s.e then readReg s rd else trunc16 (s.pc.toNat + 1)
  | .brr fib rd =>
    if Config.fibEval fib s.g s.l s.e then trunc16 (s.pc.toNat + (readReg s rd).toNat)
    else trunc16 (s.pc.toNat + 1)
  | _ => trunc16 (s.pc.toNat + 1)

/-- The I/O events an instruction records (R44). -/
def eventsOf (i : Instr) (s : State) : List IoEvent :=
  match i with
  | .ldrio _ rs1 => [.read (readReg s rs1) (Config.ioRead s.io (readReg s rs1))]
  | .strio rd rs1 => [.write (readReg s rd) (readReg s rs1)]
  | _ => []

/-- The model fault an instruction meets in a state, if any (R200, R204). -/
def ownFault (i : Instr) (s : State) : Option Fault :=
  match i with
  | .ldr _ rs1 => if inProgram s (readReg s rs1) then some (.codeAccess s.pc (readReg s rs1)) else none
  | .str rd _ => if inProgram s (readReg s rd) then some (.codeAccess s.pc (readReg s rd)) else none
  | .div _ rs1 rs2 =>
    if (readReg s rs2).toNat = 0 then some (.divideByZero s.pc)
    else if Config.divSigned = true ∧ (readReg s rs1).toInt = -32768 ∧ (readReg s rs2).toInt = -1 then
      some (.divideOverflow s.pc)
    else none
  | _ => none

end Sys2Proof.Safety
end

