-- ==== Sys2Proof/Certificates/Slice0/Obligations.lean ====
section
/-!
DEFINITION. The statements for the provers. Each docstring says which part of the spec the statement formalises, and
which decision of the spec or choice of the model it rests on; OBLIGATIONS.json lists them.
-/

open Sys2Proof Sys2Proof.Machine Sys2Proof.Safety

/-- One word of each family, from the decoder vectors of 95_test_vectors.md section 2.1 and the example table of section
1.1, decodes to the instruction and the fields given there. (Derived from 95_test_vectors.md section 2.1,
30_encoding.md section 3.) -/
def Obligations.SpecWordsDecode : Prop :=
  decode 0x22F0 = .instr (.ldrio 0 15) ∧ decode 0x2412 = .instr (.str 2 1) ∧
  decode 0x2A23 = .instr (.jmr true 3 2) ∧ decode 0x2E03 = .instr (.jmi 3 0b100000) ∧
  decode 0x3325 = .instr (.anr 5 3 2) ∧ decode 0x5C85 = .instr (.msi 5 0xC8) ∧
  decode 0x7235 = .instr (.slr 5 2 3) ∧ decode 0xAF22 = .instr (.sub 2 15 2) ∧
  decode 0xB965 = .instr (.adi 5 0x96) ∧ decode 0xF023 = .instr (.cmr 3 2) ∧
  decode 0xF3E2 = .instr (.cmi 0b11110 2) ∧ decode 0xF612 = .instr (.brr 0b00001 2) ∧
  decode 0xF9C5 = .instr (.shi .logical 5 0b11100) ∧ decode 0xFD25 = .instr (.ntr .twos 5 2) ∧
  decode 0xFE05 = .instr (.ntd .ones 5)

/-- For every instruction of the opcode table, with every operand at every value its field admits, the decoder reads
from the encoder's word exactly that instruction: no field is dropped, moved or shared. (Derived from R62, R63, R64,
R65, R66, R67, R68, R70.) -/
def Obligations.DecodeOfEncode : Prop :=
  ∀ i : Instr, decode (encode i) = .instr i

/-- For every 16-bit word and every instruction: if the word decodes to the instruction, the encoder gives the word
back, so that no two words decode to one instruction. That holds because words with a bit set that belongs to no
field are reserved, which is the spec's own decision D10 (R72, log entry 5). (Derived from R62, R63, R64, R65, R66,
R67, R68, R70, 30_encoding.md section 4 (R72), 92_eei_decisions.md D10.) -/
def Obligations.EncodeOfDecode : Prop :=
  ∀ (w : Word) (i : Instr), decode w = .instr i → encode i = w

/-- For every 16-bit word: it decodes to some instruction if and only if its opcode is not 0000 or 0001 and every bit
that belongs to no field is zero. That words with such a bit set are reserved is the spec's own decision D10 (log
entry 5). (Derived from R70, 30_encoding.md section 4, 92_eei_decisions.md D10, D11.) -/
def Obligations.DecodeAcceptsWellFormedWords : Prop :=
  ∀ w : Word, (∃ i, decode w = .instr i) ↔ wordWellFormed w = true

/-- Every word below 0x2000 is rejected as having a reserved opcode, and in every state in which the run is not over and
that word is fetched, step answers the fault ReservedInstruction with the pc and the word. The fault is the spec's
own decision D11 (log entry 5), and when a run is over its convention D23 (log entry 7). (Derived from
30_encoding.md section 4, 60_exceptions.md section 1, 92_eei_decisions.md D11.) -/
def Obligations.ReservedOpcodeFaults : Prop :=
  ∀ w : Word, w.toNat < 0x2000 →
    decode w = .reserved .opcode ∧
    ∀ s : State, s.endPc ≠ some s.pc → fetchWord s = some w → step s = .fault (.reservedInstruction s.pc w)

/-- Every word in which bit 8 of LDR, LDRio, STR, STRio, JMR or CMR or one of bits 7:4 of NTD is set is rejected by that
reason, step answers ReservedInstruction where it is fetched, and no instruction encodes to such a word. This is the
spec's own decision D10 (log entry 5), and when a run is over its convention D23 (log entry 7). (Derived from
30_encoding.md section 4, 92_eei_decisions.md D10, D11.) -/
def Obligations.BlankBitWordsFault : Prop :=
  (∀ w : Word, memJumpBlankClear w = false ∨ cmrBlankClear w = false ∨ ntdBlankClear w = false →
    decode w = .reserved .blankBit ∧
    ∀ s : State, s.endPc ≠ some s.pc → fetchWord s = some w → step s = .fault (.reservedInstruction s.pc w)) ∧
  ∀ i : Instr,
    memJumpBlankClear (encode i) = true ∧ cmrBlankClear (encode i) = true ∧ ntdBlankClear (encode i) = true

/-- In every state in which the run is not over, if the program text holds a word at the pc and the word decodes to an
instruction, step is exec of that instruction at that state; the pc is moved by exec alone. When a run is over is
the spec's own convention D23 in the model's form (log entry 7), and that fetch reads a program text of its own is
decision D5 (log entry 6). (Derived from R11, R70, 20_memory.md section 1, 92_eei_decisions.md D5, D23.) -/
def Obligations.StepRunsDecodedInstruction : Prop :=
  ∀ (s : State) (w : Word) (i : Instr), s.endPc ≠ some s.pc → s.prog.fetch s.pc = some w →
    decode w = .instr i → step s = exec i s

/-- In every state in which the run is not over and the program text holds no word at the pc, step answers the fault
FetchOutsideProgram with the pc. This is the spec's own decision D5 (log entry 6), and when a run is over its
convention D23 (log entry 7). (Derived from 20_memory.md section 1, 60_exceptions.md section 1, 92_eei_decisions.md
D5.) -/
def Obligations.FetchOutsideProgramFaults : Prop :=
  ∀ s : State, s.endPc ≠ some s.pc → s.prog.fetch s.pc = none →
    step s = .fault (.fetchOutsideProgram s.pc)

/-- In every state whose pc is END_PC, whatever the program text holds there, step is refused by the name runOver. That
a run ends there is the spec's own convention D23 and the refusal is the model's form of it (log entry 7). (Derived
from 70_reset_and_hazards.md section 5, 92_eei_decisions.md D23.) -/
def Obligations.RunIsOverAtEndPc : Prop :=
  ∀ s : State, s.endPc = some s.pc → step s = .refused (.runOver s.pc)

/-- For every state and every word: after withFetchWord the word is fetched at the pc, no other word of the program text
changes, registers, flags, pc, memory and I/O history are as before, END_PC is taken away where it was the pc and as
before where it was not, so that the pc is not END_PC, and if the word decodes to an instruction the next step is
exec of it. The load, with what it does to END_PC, is the model's stand-in for a launch (DESIGN CHOICE, log entries
7 and 8). (Derived from 70_reset_and_hazards.md section 5, 70_reset_and_hazards.md section 7, log entries 7 and 8.) -/
def Obligations.LoadedWordRunsNext : Prop :=
  ∀ (s : State) (w : Word),
    let u := s.withFetchWord 16 w.toNat
    fetchWord u = some w ∧ (∀ a, a ≠ s.pc → u.prog.fetch a = s.prog.fetch a) ∧
    u.regs = s.regs ∧ SameFlags s u ∧ u.pc = s.pc ∧ u.mem = s.mem ∧ u.io = s.io ∧
    u.endPc = (if s.endPc = some s.pc then none else s.endPc) ∧ u.endPc ≠ some u.pc ∧
    ∀ i, decode w = .instr i → step u = exec i u

/-- The word of the spec's layout decodes to it. For every state and all registers, equal ones too: if the address
x[rs1] is outside the program text, LDR answers a next state in which x[rd] is the cell at the old x[rs1] and the pc
has advanced by 1; if it is inside, the fault CodeAccess. Every other register, the flags, every cell of memory, the
I/O history and the launch record are unchanged. CodeAccess is the spec's own decision D5 (log entry 6). (Derived
from R100, 20_memory.md section 1, 92_eei_decisions.md D3, D5.) -/
def Obligations.LdrLoadsOneCell : Prop :=
  ∀ rd rs1 : RegIdx,
    decode (0b00100000#8 ++ rs1 ++ rd) = .instr (.ldr rd rs1) ∧
    ∀ s : State,
      (inProgram s (readReg s rs1) = false →
        ∃ t, exec (.ldr rd rs1) s = .next t ∧ readReg t rd = readMem s (readReg s rs1) ∧
          PcAdvanced s t ∧ OnlyReg s t rd) ∧
      (inProgram s (readReg s rs1) = true →
        exec (.ldr rd rs1) s = .fault (.codeAccess s.pc (readReg s rs1)))

/-- The word of the spec's layout decodes to it, and the statement of its syntax line, whatever the operands, names it.
For every state and all registers: LDRio answers a next state in which x[rd] is the value IO_read draws for the
event history and the old x[rs1], the event ioread of that address and value is appended to the history, and the pc
has advanced by 1. Every other register, the flags, every cell of memory and the launch record are unchanged.
(States R101.) -/
def Obligations.LdrioReadsDrawnValue : Prop :=
  ∀ rd rs1 : RegIdx,
    decode (0b00100010#8 ++ rs1 ++ rd) = .instr (.ldrio rd rs1) ∧
    assemble ⟨.LDRio, [.reg rd.toNat, .reg rs1.toNat]⟩ = some (.ldrio rd rs1) ∧
    ∀ s : State, ∃ t, exec (.ldrio rd rs1) s = .next t ∧
      readReg t rd = Config.ioRead s.io (readReg s rs1) ∧
      t.io = s.io ++ [.read (readReg s rs1) (Config.ioRead s.io (readReg s rs1))] ∧
      PcAdvanced s t ∧ SameRegsBut s t rd ∧ SameFlags s t ∧ SameMemory s t ∧ SameLaunch s t

/-- The word of the spec's layout decodes to it. For every state and all registers, equal ones too: if the address x[rd]
is outside the program text, STR answers a next state in which the cell at x[rd] is x[rs1] and the pc has advanced
by 1; if it is inside, the fault CodeAccess. Every register, the flags, every other cell of memory, the I/O history
and the launch record are unchanged. CodeAccess is the spec's own decision D5 (log entry 6). (Derived from R102,
20_memory.md section 1, 92_eei_decisions.md D3, D5.) -/
def Obligations.StrStoresOneCell : Prop :=
  ∀ rd rs1 : RegIdx,
    decode (0b00100100#8 ++ rs1 ++ rd) = .instr (.str rd rs1) ∧
    ∀ s : State,
      (inProgram s (readReg s rd) = false →
        ∃ t, exec (.str rd rs1) s = .next t ∧ readMem t (readReg s rd) = readReg s rs1 ∧
          PcAdvanced s t ∧ OnlyCell s t (readReg s rd)) ∧
      (inProgram s (readReg s rd) = true →
        exec (.str rd rs1) s = .fault (.codeAccess s.pc (readReg s rd)))

/-- The word of the spec's layout decodes to it, and the statement of its syntax line, whatever the operands, names it.
For every state and all registers: STRio answers a next state in which the event iowrite of the address x[rd] and
the value x[rs1] is appended to the history and the pc has advanced by 1. Every register, the flags, every cell of
memory and the launch record are unchanged. (States R103.) -/
def Obligations.StrioRecordsWrite : Prop :=
  ∀ rd rs1 : RegIdx,
    decode (0b00100110#8 ++ rs1 ++ rd) = .instr (.strio rd rs1) ∧
    assemble ⟨.STRio, [.reg rd.toNat, .reg rs1.toNat]⟩ = some (.strio rd rs1) ∧
    ∀ s : State, ∃ t, exec (.strio rd rs1) s = .next t ∧
      t.io = s.io ++ [.write (readReg s rd) (readReg s rs1)] ∧
      PcAdvanced s t ∧ SameRegs s t ∧ SameFlags s t ∧ SameMemory s t ∧ SameLaunch s t

/-- The word of the spec's layout decodes to it. For every state and all registers, equal ones too: the next pc is the
sum of the JMR's own address and the old x[rs1], modulo 65536; with S = 1 x[rd] becomes pc + 1 modulo 65536, with S
= 0 no register changes. Every other register, the flags, every cell of memory, the I/O history and the launch
record are unchanged. That rd is ignored when S = 0 is the spec's own decision D20 (log entry 24). (Derived from
R110, 92_eei_decisions.md D20.) -/
def Obligations.JmrJumpsRelative : Prop :=
  ∀ rd rs1 : RegIdx,
    (∀ save, decode (0b001010#6 ++ BitVec.ofBool save ++ 0#1 ++ rs1 ++ rd) = .instr (.jmr save rd rs1)) ∧
    ∀ s : State,
      (∃ t, exec (.jmr true rd rs1) s = .next t ∧ t.pc = trunc16 (s.pc.toNat + (readReg s rs1).toNat) ∧
        readReg t rd = trunc16 (s.pc.toNat + 1) ∧ OnlyReg s t rd) ∧
      (∃ t, exec (.jmr false rd rs1) s = .next t ∧ t.pc = trunc16 (s.pc.toNat + (readReg s rs1).toNat) ∧
        OnlyPc s t)

/-- The word of the spec's layout decodes to it, and the statement of its syntax line, whatever the operands, names it.
For every state, register and 6-bit immediate: the next pc is the JMI's own address plus the immediate read as a
signed number, modulo 65536, and x[rd] is pc + 1 modulo 65536. Every other register, the flags, every cell of
memory, the I/O history and the launch record are unchanged. (States R111.) -/
def Obligations.JmiJumpsAndSaves : Prop :=
  ∀ (rd : RegIdx) (imm : BitVec 6),
    decode (0b001011#6 ++ imm ++ rd) = .instr (.jmi rd imm) ∧
    assemble ⟨.JMI, [.reg rd.toNat, .lit imm.toInt]⟩ = some (.jmi rd imm) ∧
    ∀ s : State, ∃ t, exec (.jmi rd imm) s = .next t ∧
      t.pc = trunc16 (s.pc.toNat + imm.toInt) ∧ readReg t rd = trunc16 (s.pc.toNat + 1) ∧
      OnlyReg s t rd

/-- The word of the spec's layout decodes to it, and the statement of its syntax line, whatever the operands, names it.
For every state and all registers, equal ones too: each bit of the new x[rd] is 1 exactly when that bit of the old
x[rs1] and of the old x[rs2] is 1, and the pc has advanced by 1. Every other register, the flags, every cell of
memory, the I/O history and the launch record are unchanged. (States R120.) -/
def Obligations.AnrIsBitwiseAnd : Prop :=
  ∀ rd rs1 rs2 : RegIdx,
    decode (0b0011#4 ++ rs1 ++ rs2 ++ rd) = .instr (.anr rd rs1 rs2) ∧
    assemble ⟨.ANR, [.reg rd.toNat, .reg rs1.toNat, .reg rs2.toNat]⟩ = some (.anr rd rs1 rs2) ∧
    ∀ s : State, ∃ t, exec (.anr rd rs1 rs2) s = .next t ∧
      (∀ i, i < 16 →
        (readReg t rd).getLsbD i = ((readReg s rs1).getLsbD i && (readReg s rs2).getLsbD i)) ∧
      PcAdvanced s t ∧ OnlyReg s t rd

/-- The word of the spec's layout decodes to it, and the statement of its syntax line, whatever the operands, names it.
For every state, register and 8-bit immediate: bit i of the new x[rd] is, for i below 8, the AND of the old bit and
the immediate's bit, and 0 for i from 8 to 15; the pc has advanced by 1. Every other register, the flags, every cell
of memory, the I/O history and the launch record are unchanged. (States R121.) -/
def Obligations.AniMasksWithLowByte : Prop :=
  ∀ (rd : RegIdx) (imm : BitVec 8),
    decode (0b0100#4 ++ imm ++ rd) = .instr (.ani rd imm) ∧
    assemble ⟨.ANI, [.reg rd.toNat, .lit imm.toNat]⟩ = some (.ani rd imm) ∧
    ∀ s : State, ∃ t, exec (.ani rd imm) s = .next t ∧
      (∀ i, i < 8 → (readReg t rd).getLsbD i = ((readReg s rd).getLsbD i && imm.getLsbD i)) ∧
      (∀ i, 8 ≤ i → i < 16 → (readReg t rd).getLsbD i = false) ∧
      PcAdvanced s t ∧ OnlyReg s t rd

/-- The word of the spec's layout decodes to it, and the statement of its syntax line, whatever the operands, names it.
For every state, register and 8-bit immediate: bits 7:0 of the new x[rd] are the immediate, bits 15:8 are copies of
its bit 7, and the pc has advanced by 1. Every other register, the flags, every cell of memory, the I/O history and
the launch record are unchanged. (States R122.) -/
def Obligations.MsiMovesSignExtended : Prop :=
  ∀ (rd : RegIdx) (imm : BitVec 8),
    decode (0b0101#4 ++ imm ++ rd) = .instr (.msi rd imm) ∧
    assemble ⟨.MSI, [.reg rd.toNat, .lit imm.toNat]⟩ = some (.msi rd imm) ∧
    ∀ s : State, ∃ t, exec (.msi rd imm) s = .next t ∧
      (readReg t rd).extractLsb' 0 8 = imm ∧
      (∀ i, 8 ≤ i → i < 16 → (readReg t rd).getLsbD i = imm.getLsbD 7) ∧
      PcAdvanced s t ∧ OnlyReg s t rd

/-- The word of the spec's layout decodes to it. For every state, register and 8-bit immediate: bits 15:8 of the new
x[rd] are the immediate, bits 7:0 are those of the old x[rd], and the pc has advanced by 1. Every other register,
the flags, every cell of memory, the I/O history and the launch record are unchanged. That bits 7:0 stay is the
spec's inference from the Operation line. (Derived from R123.) -/
def Obligations.MhiWritesHighByte : Prop :=
  ∀ (rd : RegIdx) (imm : BitVec 8),
    decode (0b0110#4 ++ imm ++ rd) = .instr (.mhi rd imm) ∧
    ∀ s : State, ∃ t, exec (.mhi rd imm) s = .next t ∧
      (readReg t rd).extractLsb' 8 8 = imm ∧
      (readReg t rd).extractLsb' 0 8 = (readReg s rd).extractLsb' 0 8 ∧
      PcAdvanced s t ∧ OnlyReg s t rd

/-- The word of the spec's layout decodes to it. For every state and all registers, equal ones too: the new x[rd] is
Shift(logical, old x[rs1], bits 4:0 of the old x[rs2]) by the integer formulas: an amount with bit 4 clear divides
by a power of two, rounding down, one with bit 4 set multiplies by 2 to the power 32 minus the amount, modulo 65536;
the pc has advanced by 1. Every other register, the flags, every cell of memory, the I/O history and the launch
record are unchanged. The coding of left shifts is the spec's own decision D13, the kinds of shift D14 (log entry
17). (Derived from 43_shift_registered.md SLR, 43_shift_registered.md The shift amount, 92_eei_decisions.md D13,
D14.) -/
def Obligations.SlrShiftsLogical : Prop :=
  ∀ rd rs1 rs2 : RegIdx,
    decode (0b0111#4 ++ rs1 ++ rs2 ++ rd) = .instr (.slr rd rs1 rs2) ∧
    ∀ s : State, ∃ t, exec (.slr rd rs1 rs2) s = .next t ∧
      readReg t rd = shiftFormula .logical (readReg s rs1) ((readReg s rs2).extractLsb' 0 5) ∧
      PcAdvanced s t ∧ OnlyReg s t rd

/-- The word of the spec's layout decodes to it. For every state and all registers, equal ones too: the new x[rd] is
Shift(arithmetic, old x[rs1], bits 4:0 of the old x[rs2]) by the integer formulas: an amount with bit 4 clear
divides by a power of two, rounding down, one with bit 4 set multiplies by 2 to the power 32 minus the amount,
modulo 65536; the pc has advanced by 1. Every other register, the flags, every cell of memory, the I/O history and
the launch record are unchanged. The coding of left shifts is the spec's own decision D13, the kinds of shift D14
(log entry 17). (Derived from 43_shift_registered.md SAR, 43_shift_registered.md The shift amount,
92_eei_decisions.md D13, D14.) -/
def Obligations.SarShiftsArithmetic : Prop :=
  ∀ rd rs1 rs2 : RegIdx,
    decode (0b1000#4 ++ rs1 ++ rs2 ++ rd) = .instr (.sar rd rs1 rs2) ∧
    ∀ s : State, ∃ t, exec (.sar rd rs1 rs2) s = .next t ∧
      readReg t rd = shiftFormula .arithmetic (readReg s rs1) ((readReg s rs2).extractLsb' 0 5) ∧
      PcAdvanced s t ∧ OnlyReg s t rd

/-- The word of the spec's layout decodes to it, and the statement of its syntax line, whatever the operands, names it.
For every state and all registers, equal ones too: the new x[rd] is the sum of the old x[rs1] and x[rs2] as unsigned
numbers modulo 65536, no flag is written, and the pc has advanced by 1. Every other register, the flags, every cell
of memory, the I/O history and the launch record are unchanged. (States R140.) -/
def Obligations.AddIsModularSum : Prop :=
  ∀ rd rs1 rs2 : RegIdx,
    decode (0b1001#4 ++ rs1 ++ rs2 ++ rd) = .instr (.add rd rs1 rs2) ∧
    assemble ⟨.ADD, [.reg rd.toNat, .reg rs1.toNat, .reg rs2.toNat]⟩ = some (.add rd rs1 rs2) ∧
    ∀ s : State, ∃ t, exec (.add rd rs1 rs2) s = .next t ∧
      (readReg t rd).toNat = ((readReg s rs1).toNat + (readReg s rs2).toNat) % 65536 ∧
      (readReg t rd = trunc16 ((readReg s rs1).toInt + (readReg s rs2).toInt)) ∧
      PcAdvanced s t ∧ OnlyReg s t rd

/-- The word of the spec's layout decodes to it, and the statement of its syntax line, whatever the operands, names it.
For every state and all registers, equal ones too: the new x[rd] is the old x[rs1] minus the old x[rs2] modulo
65536, no flag is written, and the pc has advanced by 1. Every other register, the flags, every cell of memory, the
I/O history and the launch record are unchanged. (States R141.) -/
def Obligations.SubIsModularDifference : Prop :=
  ∀ rd rs1 rs2 : RegIdx,
    decode (0b1010#4 ++ rs1 ++ rs2 ++ rd) = .instr (.sub rd rs1 rs2) ∧
    assemble ⟨.SUB, [.reg rd.toNat, .reg rs1.toNat, .reg rs2.toNat]⟩ = some (.sub rd rs1 rs2) ∧
    ∀ s : State, ∃ t, exec (.sub rd rs1 rs2) s = .next t ∧
      readReg t rd = trunc16 ((readReg s rs1).toNat - (readReg s rs2).toNat) ∧
      PcAdvanced s t ∧ OnlyReg s t rd

/-- The word of the spec's layout decodes to it, and the statement of its syntax line, whatever the operands, names it.
For every state, register and 8-bit immediate: the new x[rd] is the old x[rd] plus the immediate read as a signed
number, -128 to 127, modulo 65536, and the pc has advanced by 1. Every other register, the flags, every cell of
memory, the I/O history and the launch record are unchanged. (States R142.) -/
def Obligations.AdiAddsSignedImmediate : Prop :=
  ∀ (rd : RegIdx) (imm : BitVec 8),
    decode (0b1011#4 ++ imm ++ rd) = .instr (.adi rd imm) ∧
    assemble ⟨.ADI, [.reg rd.toNat, .lit imm.toNat]⟩ = some (.adi rd imm) ∧
    ∀ s : State, ∃ t, exec (.adi rd imm) s = .next t ∧
      readReg t rd = trunc16 ((readReg s rd).toNat + imm.toInt) ∧
      PcAdvanced s t ∧ OnlyReg s t rd

/-- The word of the spec's layout decodes to it, and the statement of its syntax line, whatever the operands, names it.
For every state, register and 8-bit immediate: the new x[rd] is the old x[rd] minus the immediate read as a signed
number, modulo 65536, and the pc has advanced by 1. Every other register, the flags, every cell of memory, the I/O
history and the launch record are unchanged. (States R143.) -/
def Obligations.SuiSubtractsSignedImmediate : Prop :=
  ∀ (rd : RegIdx) (imm : BitVec 8),
    decode (0b1100#4 ++ imm ++ rd) = .instr (.sui rd imm) ∧
    assemble ⟨.SUI, [.reg rd.toNat, .lit imm.toNat]⟩ = some (.sui rd imm) ∧
    ∀ s : State, ∃ t, exec (.sui rd imm) s = .next t ∧
      readReg t rd = trunc16 ((readReg s rd).toNat - imm.toInt) ∧
      PcAdvanced s t ∧ OnlyReg s t rd

/-- The word of the spec's layout decodes to it, and the statement of its syntax line, whatever the operands, names it.
For every state and all registers, equal ones too: the new x[rd] is the exact product of the old x[rs1] and x[rs2],
read as signed numbers if MUL_SIGNED and as unsigned ones if not, divided by 65536 and rounded down, reduced to 16
bits; no other register receives the low half; the pc has advanced by 1. Every other register, the flags, every cell
of memory, the I/O history and the launch record are unchanged. (States R144.) -/
def Obligations.MulWritesHighHalf : Prop :=
  ∀ rd rs1 rs2 : RegIdx,
    decode (0b1101#4 ++ rs1 ++ rs2 ++ rd) = .instr (.mul rd rs1 rs2) ∧
    assemble ⟨.MUL, [.reg rd.toNat, .reg rs1.toNat, .reg rs2.toNat]⟩ = some (.mul rd rs1 rs2) ∧
    ∀ s : State, ∃ t, exec (.mul rd rs1 rs2) s = .next t ∧
      readReg t rd = trunc16
        (valueOf Config.mulSigned (readReg s rs1) * valueOf Config.mulSigned (readReg s rs2) / 65536) ∧
      PcAdvanced s t ∧ OnlyReg s t rd

/-- The word of the spec's layout decodes to it. For every state and all registers, equal ones too: a zero divisor is
the fault DivideByZero; 0x8000 by 0xFFFF is the fault DivideOverflow if DIV_SIGNED and gives 0 if not; any other
division gives a next state whose x[rd], read under DIV_SIGNED, is the quotient truncated toward zero, with the pc
advanced by 1. Every other register, the flags, every cell of memory, the I/O history and the launch record are
unchanged. The two faults are the spec's own decision D18 (log entry 12). (Derived from R145, 92_eei_decisions.md
D17, D18.) -/
def Obligations.DivWritesQuotient : Prop :=
  ∀ rd rs1 rs2 : RegIdx,
    decode (0b1110#4 ++ rs1 ++ rs2 ++ rd) = .instr (.div rd rs1 rs2) ∧
    ∀ s : State,
      (readReg s rs2 = 0x0000 → exec (.div rd rs1 rs2) s = .fault (.divideByZero s.pc)) ∧
      (readReg s rs1 = 0x8000 → readReg s rs2 = 0xFFFF →
        if Config.divSigned then exec (.div rd rs1 rs2) s = .fault (.divideOverflow s.pc)
        else ∃ t, exec (.div rd rs1 rs2) s = .next t ∧ readReg t rd = 0 ∧ PcAdvanced s t ∧ OnlyReg s t rd) ∧
      (readReg s rs2 ≠ 0x0000 → ¬(readReg s rs1 = 0x8000 ∧ readReg s rs2 = 0xFFFF) →
        ∃ t, exec (.div rd rs1 rs2) s = .next t ∧
          IsQuotient (valueOf Config.divSigned (readReg s rs1)) (valueOf Config.divSigned (readReg s rs2))
            (valueOf Config.divSigned (readReg t rd)) ∧
          PcAdvanced s t ∧ OnlyReg s t rd)

/-- The word of the spec's layout decodes to it. For every state and all operands, with a the old x[rs2] and b the old
x[rs1], both read under CMP_SIGNED: G becomes 1 exactly when a > b, L exactly when a < b, E exactly when a = b, and
the pc has advanced by 1. Every register, every cell of memory, the I/O history and the launch record are unchanged.
That the flags whose condition fails are cleared is the spec's own decision D16 (log entry 18). (Derived from
45_compare_branch.md CMR, 92_eei_decisions.md D16, D17.) -/
def Obligations.CmrComparesRegisters : Prop :=
  ∀ rs1 rs2 : RegIdx,
    decode (0b11110000#8 ++ rs2 ++ rs1) = .instr (.cmr rs1 rs2) ∧
    ∀ s : State, ∃ t, exec (.cmr rs1 rs2) s = .next t ∧
      (t.g = true ↔ valueOf Config.cmpSigned (readReg s rs1) < valueOf Config.cmpSigned (readReg s rs2)) ∧
      (t.l = true ↔ valueOf Config.cmpSigned (readReg s rs2) < valueOf Config.cmpSigned (readReg s rs1)) ∧
      (t.e = true ↔ (readReg s rs2) = readReg s rs1) ∧
      PcAdvanced s t ∧ OnlyFlags s t

/-- The word of the spec's layout decodes to it. For every state and all operands, with a the 5-bit immediate sign-
extended to 16 bits and b the old x[rs1], both read under CMP_SIGNED: G becomes 1 exactly when a > b, L exactly when
a < b, E exactly when a = b, and the pc has advanced by 1. Every register, every cell of memory, the I/O history and
the launch record are unchanged. That the flags whose condition fails are cleared is the spec's own decision D16
(log entry 18). (Derived from 45_compare_branch.md CMI, 92_eei_decisions.md D16, D17.) -/
def Obligations.CmiComparesImmediate : Prop :=
  ∀ (imm : BitVec 5) (rs1 : RegIdx),
    decode (0b1111001#7 ++ imm ++ rs1) = .instr (.cmi imm rs1) ∧
    ∀ s : State, ∃ t, exec (.cmi imm rs1) s = .next t ∧
      (t.g = true ↔ valueOf Config.cmpSigned (readReg s rs1) < valueOf Config.cmpSigned (trunc16 imm.toInt)) ∧
      (t.l = true ↔ valueOf Config.cmpSigned (trunc16 imm.toInt) < valueOf Config.cmpSigned (readReg s rs1)) ∧
      (t.e = true ↔ (trunc16 imm.toInt) = readReg s rs1) ∧
      PcAdvanced s t ∧ OnlyFlags s t

/-- The word of the spec's layout decodes to it, and the statement of its syntax line, whatever the operands, names it.
For every state, register and FIB value: BRC answers a next state whose pc is x[rd] if FIB_eval of the field and the
three flags is true, and pc + 1 modulo 65536 if it is false. Every register, the flags, every cell of memory, the
I/O history and the launch record are unchanged. (States R164.) -/
def Obligations.BrcBranchesAbsolute : Prop :=
  ∀ (fib : BitVec 5) (rd : RegIdx),
    decode (0b1111010#7 ++ fib ++ rd) = .instr (.brc fib rd) ∧
    assemble ⟨.BRC, [.lit fib.toNat, .reg rd.toNat]⟩ = some (.brc fib rd) ∧
    ∀ s : State, ∃ t, exec (.brc fib rd) s = .next t ∧
      t.pc = (if Config.fibEval fib s.g s.l s.e then readReg s rd else trunc16 (s.pc.toNat + 1)) ∧
      OnlyPc s t

/-- The word of the spec's layout decodes to it, and the statement of its syntax line, whatever the operands, names it.
For every state, register and FIB value: BRR answers a next state whose pc is pc + x[rd] modulo 65536 if FIB_eval of
the field and the three flags is true, and pc + 1 modulo 65536 if it is false. Every register, the flags, every cell
of memory, the I/O history and the launch record are unchanged. (States R165.) -/
def Obligations.BrrBranchesRelative : Prop :=
  ∀ (fib : BitVec 5) (rd : RegIdx),
    decode (0b1111011#7 ++ fib ++ rd) = .instr (.brr fib rd) ∧
    assemble ⟨.BRR, [.lit fib.toNat, .reg rd.toNat]⟩ = some (.brr fib rd) ∧
    ∀ s : State, ∃ t, exec (.brr fib rd) s = .next t ∧
      t.pc = (if Config.fibEval fib s.g s.l s.e then trunc16 (s.pc.toNat + (readReg s rd).toNat) else trunc16 (s.pc.toNat + 1)) ∧
      OnlyPc s t

/-- The word of the spec's layout decodes to it. LA = 0 is the logical kind and LA = 1 the arithmetic kind. For every
state, kind, register and 5-bit amount: the new x[rd] is Shift(kind, old x[rd], shimm) by the integer formulas, and
the pc has advanced by 1. Every other register, the flags, every cell of memory, the I/O history and the launch
record are unchanged. The coding of left shifts is the spec's own decision D13, the kinds of shift D14 (log entry
17). (Derived from 46_shift_imm_not.md SHI, 43_shift_registered.md The shift amount, 92_eei_decisions.md D13, D14.) -/
def Obligations.ShiShiftsByImmediate : Prop :=
  ∀ (kind : ShiftKind) (rd : RegIdx) (shimm : BitVec 5),
    decode (0b111110#6 ++ BitVec.ofBool (decide (kind = .arithmetic)) ++ shimm ++ rd) = .instr (.shi kind rd shimm) ∧
    ∀ s : State, ∃ t, exec (.shi kind rd shimm) s = .next t ∧
      readReg t rd = shiftFormula kind (readReg s rd) shimm ∧
      PcAdvanced s t ∧ OnlyReg s t rd

/-- The word of the spec's layout decodes to it. For every state and all registers: with 1/2C = 0 each bit of the new
x[rd] is the inverse of that bit of the old x[rs1]; with 1/2C = 1 the new x[rd] is 65536 minus the old x[rs1],
modulo 65536; the pc has advanced by 1. Every other register, the flags, every cell of memory, the I/O history and
the launch record are unchanged. The two complements are defined by the spec from general knowledge (G4, log entry
26). (Derived from 46_shift_imm_not.md NTR, 93_implementation_defined.md G4.) -/
def Obligations.NtrComplementsRegister : Prop :=
  ∀ rd rs1 : RegIdx,
    decode (0b1111110#7 ++ BitVec.ofBool false ++ rs1 ++ rd) = .instr (.ntr .ones rd rs1) ∧
    decode (0b1111110#7 ++ BitVec.ofBool true ++ rs1 ++ rd) = .instr (.ntr .twos rd rs1) ∧
    ∀ s : State,
      (∃ t, exec (.ntr .ones rd rs1) s = .next t ∧
        (∀ i, i < 16 → (readReg t rd).getLsbD i = !(readReg s rs1).getLsbD i) ∧
        PcAdvanced s t ∧ OnlyReg s t rd) ∧
      (∃ t, exec (.ntr .twos rd rs1) s = .next t ∧
        readReg t rd = trunc16 (65536 - (readReg s rs1).toNat) ∧ PcAdvanced s t ∧ OnlyReg s t rd)

/-- The word of the spec's layout decodes to it. For every state and all registers: with 1/2C = 0 each bit of the new
x[rd] is the inverse of that bit of the old x[rd]; with 1/2C = 1 the new x[rd] is 65536 minus the old x[rd], modulo
65536; the pc has advanced by 1. Every other register, the flags, every cell of memory, the I/O history and the
launch record are unchanged. The two complements are defined by the spec from general knowledge (G4, log entry 26).
(Derived from 46_shift_imm_not.md NTD, 93_implementation_defined.md G4.) -/
def Obligations.NtdComplementsInPlace : Prop :=
  ∀ rd : RegIdx,
    decode (0b1111111#7 ++ BitVec.ofBool false ++ 0#4 ++ rd) = .instr (.ntd .ones rd) ∧
    decode (0b1111111#7 ++ BitVec.ofBool true ++ 0#4 ++ rd) = .instr (.ntd .twos rd) ∧
    ∀ s : State,
      (∃ t, exec (.ntd .ones rd) s = .next t ∧
        (∀ i, i < 16 → (readReg t rd).getLsbD i = !(readReg s rd).getLsbD i) ∧
        PcAdvanced s t ∧ OnlyReg s t rd) ∧
      (∃ t, exec (.ntd .twos rd) s = .next t ∧
        readReg t rd = trunc16 (65536 - (readReg s rd).toNat) ∧ PcAdvanced s t ∧ OnlyReg s t rd)

/-- For every state that meets the invariant (addresses of memory and program text strictly rising and below 65536, no
memory cell listed that equals what an unlisted cell reads as, END_PC not in the domain of PROG), if step answers a
next state, that state meets it too. The canonical form is the model's (log entries 4 and 16), the rule on END_PC
the spec's decision D23 (log entry 7). (Derived from 20_memory.md section 1, 70_reset_and_hazards.md section 5.) -/
def Obligations.StepKeepsInv : Prop :=
  ∀ s t : State, Inv s → step s = .next t → Inv t

/-- State.reset meets the invariant that every step keeps, has an empty program text and an empty I/O history, and its
first step is the fault FetchOutsideProgram, since no launch has placed a program. What reset leaves is the model's
choice (log entries 1 to 4 and 7 to 9). (Derived from 70_reset_and_hazards.md section 1, log entries 1 to 9.) -/
def Obligations.ResetMeetsInv : Prop :=
  Inv State.reset ∧ State.reset.prog = [] ∧ State.reset.io = [] ∧
    step State.reset = .fault (.fetchOutsideProgram State.reset.pc)

/-- For every instruction and state: if exec answers a next state, then after CMR or CMI exactly one of G, L and E is 1,
and after any other instruction all three are as before. Clearing the others is the spec's own decision D16 (log
entry 18). (Derived from 10_state.md section 3, 92_eei_decisions.md D16.) -/
def Obligations.FlagsWrittenOnlyByCompares : Prop :=
  ∀ (i : Instr) (s t : State), exec i s = .next t →
    if isCompare i then OneFlag t else SameFlags s t

/-- For every instruction other than BRC and BRR, every state and any three flag values: executing it with those flags
gives the same outcome, the same fault or the same next state but for the flags, which are the given ones unless the
instruction is a compare; so no instruction copies a flag into a register, memory or the I/O history. BRC and BRR
choose the next pc by FIB_eval of the field and the three flags alone. That a compare's flags do not depend on the
old ones is the spec's own decision D16 (log entry 18). (Derived from R30, 92_eei_decisions.md D16.) -/
def Obligations.FlagsReadOnlyByBranches : Prop :=
  (∀ (i : Instr) (s : State) (g l e : Bool), isBranch i = false →
    match exec i s, exec i (setFlags s g l e) with
    | .next t, .next u => u = if isCompare i then t else setFlags t g l e
    | .fault f, .fault f' => f = f'
    | _, _ => False) ∧
  ∀ (fib : BitVec 5) (rd : RegIdx) (s : State),
    (∃ t, exec (.brc fib rd) s = .next t ∧
      t.pc = (if Config.fibEval fib s.g s.l s.e then readReg s rd else trunc16 (s.pc.toNat + 1))) ∧
    (∃ t, exec (.brr fib rd) s = .next t ∧
      t.pc = (if Config.fibEval fib s.g s.l s.e then trunc16 (s.pc.toNat + (readReg s rd).toNat)
        else trunc16 (s.pc.toNat + 1)))

/-- For every state in which exactly one flag is 1, if step answers a next state, exactly one flag is 1 there; and from
any state a step that runs a CMR or CMI leads to such a state. This rests on the spec's own decision D16 (log entry
18). (Derived from 10_state.md section 3, 92_eei_decisions.md D16.) -/
def Obligations.StepKeepsOneFlag : Prop :=
  ∀ s t : State, step s = .next t →
    (OneFlag s → OneFlag t) ∧
    ∀ w i, fetchWord s = some w → decode w = .instr i → isCompare i = true → OneFlag t

/-- For every instruction and state: if exec answers a next state, its pc is the table's: pc + x[rs1] for JMR, pc plus
the signed immediate for JMI, the register or pc plus it for a BRC or BRR whose condition holds, and pc + 1 in every
other case, modulo 65536 (the width of the pc is the spec's own decision D2, log entry 23). (Derived from
10_state.md section 2, 92_eei_decisions.md D2.) -/
def Obligations.NextPcIsTheTables : Prop :=
  ∀ (i : Instr) (s t : State), exec i s = .next t → t.pc = nextPcOf i s

/-- For every instruction and state: if exec answers a next state, every register that the table does not list as
written by the instruction holds its old value, and the launch record is unchanged (no register is special: the
spec's own decision D1, log entry 22). (Derived from 10_state.md section 1, 92_eei_decisions.md D1.) -/
def Obligations.RegistersWrittenAreTheTables : Prop :=
  ∀ (i : Instr) (s t : State), exec i s = .next t →
    (∀ r, r ∉ writesOf i → readReg t r = readReg s r) ∧ SameLaunch s t

/-- For every instruction, every register that the table does not list as read by it, every state and every value:
executing the instruction with that value in the register gives the same fault, or the same next state but for that
register, which keeps the value unless the instruction writes it. (Derived from 10_state.md section 1.) -/
def Obligations.UnreadRegisterHasNoEffect : Prop :=
  ∀ (i : Instr) (s : State) (r : RegIdx) (v : Word), r ∉ readsOf i →
    match exec i s, exec i (writeReg s r v) with
    | .next t, .next u => u = if r ∈ writesOf i then t else writeReg t r v
    | .fault f, .fault f' => f = f'
    | _, _ => False

/-- For every instruction and state: if exec answers a next state, its I/O history is the old one followed by the one
event of a LDRio (address and drawn value) or STRio (address and value), and by nothing for every other instruction;
no event is merged, reordered, dropped or repeated. This is the spec's own decision D6 (log entry 9). (Derived from
20_memory.md section 1, 92_eei_decisions.md D6.) -/
def Obligations.IoEventsInProgramOrder : Prop :=
  ∀ (i : Instr) (s t : State), exec i s = .next t → t.io = s.io ++ eventsOf i s

/-- For every instruction, state and address: if exec answers a next state, the cell there is x[rs1] if the instruction
is a STR whose x[rd] is that address, and as before in every other case: the I/O forms in particular leave the
memory space alone. The memory map is the spec's own decision D9 (log entry 16). (Derived from 20_memory.md section
1, 92_eei_decisions.md D9.) -/
def Obligations.MemoryWrittenOnlyByStr : Prop :=
  ∀ (i : Instr) (s t : State) (a : Word), exec i s = .next t →
    readMem t a = match i with
      | .str rd rs1 => if a = readReg s rd then readReg s rs1 else readMem s a
      | _ => readMem s a

/-- For every instruction and state: LDR and STR at an address in the program text answer CodeAccess, DIV by zero
DivideByZero, DIV of -32768 by -1 with DIV_SIGNED DivideOverflow, each with what it records, and in every other case
exec answers a next state; no instruction is refused. The faults are the spec's own decisions D5 and D18 (log
entries 6, 12 and 25). That no instruction meets UnwrittenRead, which R200 and R204 list for a model that tracks
unwritten registers and flags, is the model's choice not to track them (DESIGN CHOICE, log entry 13). (Derived from
60_exceptions.md section 1, 60_exceptions.md section 4, 70_reset_and_hazards.md section 1, 92_eei_decisions.md D5,
D18, D22, log entry 13.) -/
def Obligations.ExecStopsOnlyByOwnFault : Prop :=
  ∀ (i : Instr) (s : State),
    match ownFault i s with
    | some f => exec i s = .fault f
    | none => ∃ t, exec i s = .next t

/-- For every number of steps and every state, reachable or not: if the run of that many steps ends in a state, its
program text and END_PC are those it started with, and its I/O history is the old one followed by at most as many
events as steps. These are the spec's own decisions D5 and D6 (log entries 6 and 9), and END_PC its convention D23
in the model's form (log entry 7). (Derived from 20_memory.md section 3, 70_reset_and_hazards.md section 6,
92_eei_decisions.md D5, D6, D23.) -/
def Obligations.RunKeepsLaunchAndHistory : Prop :=
  ∀ (k : Nat) (s t : State), Host.Core.run Sys2Proof.core k s = .next t →
    t.prog = s.prog ∧ t.endPc = s.endPc ∧ ∃ events, t.io = s.io ++ events ∧ events.length ≤ k

/-- For every state and all registers: if STR answers a next state, then a LDR through the same address register
completes there, and its destination holds the 16 bits the STR stored. This rests on the spec's own decision D9 (log
entry 16). (Derived from 20_memory.md section 3, 92_eei_decisions.md D9.) -/
def Obligations.LoadAfterStoreGivesStoredValue : Prop :=
  ∀ (rd rs1 rd' : RegIdx) (s t : State), exec (.str rd rs1) s = .next t →
    ∃ u, exec (.ldr rd' rd) t = .next u ∧ readReg u rd' = readReg s rs1

/-- For every state, register and pair of bytes: MSI of the low byte and then MHI of the high byte both complete, and
the register then holds the high byte over the low byte, the pc being 2 further, modulo 65536, and nothing else
changes. That MHI keeps bits 7:0 is the spec's inference from the Operation line. (Derived from 30_encoding.md
section 6, 42_logic_move.md MHI.) -/
def Obligations.MoveImmediatePairLoadsConstant : Prop :=
  ∀ (rd : RegIdx) (high low : BitVec 8) (s : State),
    ∃ t u, exec (.msi rd low) s = .next t ∧ exec (.mhi rd high) t = .next u ∧
      readReg u rd = high ++ low ∧ u.pc = trunc16 (s.pc.toNat + 2) ∧ OnlyReg s u rd

/-- For every state, register and complement: NTD executed twice completes both times and leaves every register as it
was, and each NTD does what NTR with rs1 = rd does. The two complements are defined by the spec from general
knowledge (G4, log entry 26). (Derived from 46_shift_imm_not.md NTD.) -/
def Obligations.NtdTwiceRestores : Prop :=
  ∀ (c : Complement) (rd : RegIdx) (s : State),
    exec (.ntd c rd) s = exec (.ntr c rd rd) s ∧
    ∃ t u, exec (.ntd c rd) s = .next t ∧ exec (.ntd c rd) t = .next u ∧ SameRegs s u

/-- For every call by JMI and every later state with a register holding the saved return address minus the pc there,
modulo 65536, JMR by that register completes with the pc at the instruction after the JMI. (Derived from 41_jump.md
Calls, returns and conventions.) -/
def Obligations.ReturnByComputedOffset : Prop :=
  ∀ (rd rs1 rd' : RegIdx) (imm : BitVec 6) (save : Bool) (s t u : State), exec (.jmi rd imm) s = .next t →
    readReg u rs1 = trunc16 ((readReg t rd).toNat - u.pc.toNat) →
    ∃ v, exec (.jmr save rd' rs1) u = .next v ∧ v.pc = trunc16 (s.pc.toNat + 1)

/-- For every state that fetches JMI rd 0 where the run is not over, a run of any number of steps ends in a next state
at the same pc, with x[rd] = pc + 1 after the first step and everything else unchanged: it neither stops, faults nor
is refused. That a final state is pc = END_PC, and not a JMI rd 0 as R226 also lets a model take it, is the spec's
own convention D23 in the model's form (DESIGN CHOICE, log entry 7). (Derived from 70_reset_and_hazards.md section
5, 41_jump.md JMI, 92_eei_decisions.md D23, log entry 7.) -/
def Obligations.JmiToItselfRunsForever : Prop :=
  ∀ (s : State) (w : Word) (rd : RegIdx) (k : Nat), s.endPc ≠ some s.pc → fetchWord s = some w →
    decode w = .instr (.jmi rd 0) →
    ∃ t : State, Host.Core.run Sys2Proof.core k s = .next t ∧ t.pc = s.pc ∧ OnlyReg s t rd ∧
      (0 < k → readReg t rd = trunc16 (s.pc.toNat + 1))

/-- For all values below 0x8000 the high half of the product and, for a divisor other than 0, the quotient are the same
under both readings; a comparison of two values on the same side of 0x8000 gives the same G and L under both, and on
different sides the readings swap G and L. (Derived from 44_arithmetic.md Laws of the integer arithmetic,
45_compare_branch.md The comparison, 92_eei_decisions.md D17.) -/
def Obligations.SignednessReadingsAgree : Prop :=
  ∀ a b : Word,
    (a.toNat < 0x8000 → b.toNat < 0x8000 →
      mulHigh true a b = mulHigh false a b ∧ (b ≠ 0 → quotient true a b = quotient false a b)) ∧
    ((a.toNat < 0x8000 ↔ b.toNat < 0x8000) →
      isGreater true a b = isGreater false a b ∧ isLess true a b = isLess false a b) ∧
    (¬(a.toNat < 0x8000 ↔ b.toNat < 0x8000) →
      isGreater true a b = isLess false a b ∧ isLess true a b = isGreater false a b)

/-- For every instruction: its listing in the spec's spelling (a mnemonic and operands, option bits in the mnemonic, JMI
and SHI amounts signed) names that instruction and no other. The spellings are the spec's own decision D24 (log
entry 27). (Derived from 30_encoding.md section 6, 92_eei_decisions.md D24.) -/
def Obligations.AssembleOfStatement : Prop :=
  ∀ i : Instr, assemble (statementOf i) = some i
end

