-- ==== Sys2Proof/Laws/State.lean ====
section
/-!
SUPPORT. What each state operation does to each field, and reading a register after writing one.
-/

namespace Sys2Proof.Machine

section
variable (s : State) (r : RegIdx) (v t a : Word) (g l e : Bool)

@[simp] theorem writeReg_pc : (writeReg s r v).pc = s.pc := rfl
@[simp] theorem writeReg_g : (writeReg s r v).g = s.g := rfl
@[simp] theorem writeReg_l : (writeReg s r v).l = s.l := rfl
@[simp] theorem writeReg_e : (writeReg s r v).e = s.e := rfl
@[simp] theorem writeReg_mem : (writeReg s r v).mem = s.mem := rfl
@[simp] theorem writeReg_io : (writeReg s r v).io = s.io := rfl
@[simp] theorem writeReg_prog : (writeReg s r v).prog = s.prog := rfl
@[simp] theorem writeReg_endPc : (writeReg s r v).endPc = s.endPc := rfl

@[simp] theorem setPc_pc : (setPc s t).pc = t := rfl
@[simp] theorem setPc_regs : (setPc s t).regs = s.regs := rfl
@[simp] theorem setPc_g : (setPc s t).g = s.g := rfl
@[simp] theorem setPc_l : (setPc s t).l = s.l := rfl
@[simp] theorem setPc_e : (setPc s t).e = s.e := rfl
@[simp] theorem setPc_mem : (setPc s t).mem = s.mem := rfl
@[simp] theorem setPc_io : (setPc s t).io = s.io := rfl
@[simp] theorem setPc_prog : (setPc s t).prog = s.prog := rfl
@[simp] theorem setPc_endPc : (setPc s t).endPc = s.endPc := rfl

@[simp] theorem setFlags_g : (setFlags s g l e).g = g := rfl
@[simp] theorem setFlags_l : (setFlags s g l e).l = l := rfl
@[simp] theorem setFlags_e : (setFlags s g l e).e = e := rfl
@[simp] theorem setFlags_regs : (setFlags s g l e).regs = s.regs := rfl
@[simp] theorem setFlags_pc : (setFlags s g l e).pc = s.pc := rfl
@[simp] theorem setFlags_mem : (setFlags s g l e).mem = s.mem := rfl
@[simp] theorem setFlags_io : (setFlags s g l e).io = s.io := rfl
@[simp] theorem setFlags_prog : (setFlags s g l e).prog = s.prog := rfl
@[simp] theorem setFlags_endPc : (setFlags s g l e).endPc = s.endPc := rfl

@[simp] theorem writeMem_mem : (writeMem s a v).mem = s.mem.write a v := rfl
@[simp] theorem writeMem_regs : (writeMem s a v).regs = s.regs := rfl
@[simp] theorem writeMem_pc : (writeMem s a v).pc = s.pc := rfl
@[simp] theorem writeMem_g : (writeMem s a v).g = s.g := rfl
@[simp] theorem writeMem_l : (writeMem s a v).l = s.l := rfl
@[simp] theorem writeMem_e : (writeMem s a v).e = s.e := rfl
@[simp] theorem writeMem_io : (writeMem s a v).io = s.io := rfl
@[simp] theorem writeMem_prog : (writeMem s a v).prog = s.prog := rfl
@[simp] theorem writeMem_endPc : (writeMem s a v).endPc = s.endPc := rfl

@[simp] theorem ioWrite_io : (ioWrite s a v).io = s.io ++ [.write a v] := rfl
@[simp] theorem ioWrite_regs : (ioWrite s a v).regs = s.regs := rfl
@[simp] theorem ioWrite_pc : (ioWrite s a v).pc = s.pc := rfl
@[simp] theorem ioWrite_g : (ioWrite s a v).g = s.g := rfl
@[simp] theorem ioWrite_l : (ioWrite s a v).l = s.l := rfl
@[simp] theorem ioWrite_e : (ioWrite s a v).e = s.e := rfl
@[simp] theorem ioWrite_mem : (ioWrite s a v).mem = s.mem := rfl
@[simp] theorem ioWrite_prog : (ioWrite s a v).prog = s.prog := rfl
@[simp] theorem ioWrite_endPc : (ioWrite s a v).endPc = s.endPc := rfl

@[simp] theorem ioRead_value : (ioRead s a).1 = Config.ioRead s.io a := rfl
@[simp] theorem ioRead_io : (ioRead s a).2.io = s.io ++ [.read a (Config.ioRead s.io a)] := rfl
@[simp] theorem ioRead_regs : (ioRead s a).2.regs = s.regs := rfl
@[simp] theorem ioRead_pc : (ioRead s a).2.pc = s.pc := rfl
@[simp] theorem ioRead_g : (ioRead s a).2.g = s.g := rfl
@[simp] theorem ioRead_l : (ioRead s a).2.l = s.l := rfl
@[simp] theorem ioRead_e : (ioRead s a).2.e = s.e := rfl
@[simp] theorem ioRead_mem : (ioRead s a).2.mem = s.mem := rfl
@[simp] theorem ioRead_prog : (ioRead s a).2.prog = s.prog := rfl
@[simp] theorem ioRead_endPc : (ioRead s a).2.endPc = s.endPc := rfl

@[simp] theorem placeNext_regs : (placeNext s v).regs = s.regs := rfl
@[simp] theorem placeNext_pc : (placeNext s v).pc = s.pc := rfl
@[simp] theorem placeNext_g : (placeNext s v).g = s.g := rfl
@[simp] theorem placeNext_l : (placeNext s v).l = s.l := rfl
@[simp] theorem placeNext_e : (placeNext s v).e = s.e := rfl
@[simp] theorem placeNext_mem : (placeNext s v).mem = s.mem := rfl
@[simp] theorem placeNext_io : (placeNext s v).io = s.io := rfl
@[simp] theorem placeNext_prog : (placeNext s v).prog = s.prog.place s.pc v := rfl

end

/-- What reads a field other than `regs` is not touched by a register write, and the other way round. -/
@[simp] theorem readReg_setPc (s : State) (t : Word) (q : RegIdx) : readReg (setPc s t) q = readReg s q := rfl
@[simp] theorem readReg_setFlags (s : State) (g l e : Bool) (q : RegIdx) :
    readReg (setFlags s g l e) q = readReg s q := rfl
@[simp] theorem readReg_writeMem (s : State) (a v : Word) (q : RegIdx) :
    readReg (writeMem s a v) q = readReg s q := rfl
@[simp] theorem readReg_ioWrite (s : State) (a v : Word) (q : RegIdx) :
    readReg (ioWrite s a v) q = readReg s q := rfl
@[simp] theorem readReg_ioRead (s : State) (a : Word) (q : RegIdx) :
    readReg (ioRead s a).2 q = readReg s q := rfl

@[simp] theorem readMem_setPc (s : State) (t b : Word) : readMem (setPc s t) b = readMem s b := rfl
@[simp] theorem readMem_writeReg (s : State) (r : RegIdx) (v b : Word) :
    readMem (writeReg s r v) b = readMem s b := rfl
@[simp] theorem readMem_setFlags (s : State) (g l e : Bool) (b : Word) :
    readMem (setFlags s g l e) b = readMem s b := rfl
@[simp] theorem readMem_ioWrite (s : State) (a v b : Word) : readMem (ioWrite s a v) b = readMem s b := rfl
@[simp] theorem readMem_ioRead (s : State) (a b : Word) : readMem (ioRead s a).2 b = readMem s b := rfl

/-- A register reads back what was written to it, and no other register changes (R20, R21). -/
theorem readReg_writeReg (s : State) (r q : RegIdx) (v : Word) :
    readReg (writeReg s r v) q = if q = r then v else readReg s q := by
  simp only [readReg, writeReg, Vector.getElem_set, BitVec.toNat_inj]
  split <;> split <;> simp_all

@[simp] theorem readReg_writeReg_same (s : State) (r : RegIdx) (v : Word) :
    readReg (writeReg s r v) r = v := by
  simp [readReg_writeReg]

/-- The later of two writes to one register is the one that stays. -/
theorem writeReg_writeReg_same (s : State) (r : RegIdx) (u v : Word) :
    writeReg (writeReg s r u) r v = writeReg s r v := by
  simp [writeReg]

/-- Writes to two registers may be made in either order. -/
theorem writeReg_comm (s : State) {r q : RegIdx} (h : r ≠ q) (u v : Word) :
    writeReg (writeReg s r u) q v = writeReg (writeReg s q v) r u := by
  have hne : r.toNat ≠ q.toNat := fun hc => h (BitVec.eq_of_toNat_eq hc)
  simp only [writeReg]
  rw [Vector.set_comm _ _ hne]

end Sys2Proof.Machine
end

