-- ==== Sys2Proof/Laws/Memory.lean ====
section
/-!
SUPPORT. The laws of lists of cells: read after write, and that every operation keeps the canonical form.
-/

namespace Sys2Proof.Machine

theorem cellsLookup_erase (m : List (Nat × Word)) (a b : Nat) :
    cellsLookup (cellsErase m a) b = if b = a then none else cellsLookup m b := by
  induction m with
  | nil => simp [cellsErase, cellsLookup]
  | cons c rest ih =>
    obtain ⟨d, v⟩ := c
    simp only [cellsErase]
    by_cases hd : d = a <;> by_cases hb : b = a <;> by_cases hdb : d = b <;> simp_all [cellsLookup]

theorem cellsLookup_insert {m : List (Nat × Word)} {a : Nat} (h : cellsLookup m a = none) (v : Word) (b : Nat) :
    cellsLookup (cellsInsert m a v) b = if b = a then some v else cellsLookup m b := by
  induction m with
  | nil => simp [cellsInsert, cellsLookup, eq_comm]
  | cons c rest ih =>
    obtain ⟨d, u⟩ := c
    simp only [cellsInsert]
    by_cases hlt : a < d
    · rw [if_pos hlt]
      simp only [cellsLookup, eq_comm (a := b)]
    · have hd : d ≠ a := by rintro rfl; simp [cellsLookup] at h
      have hrest : cellsLookup rest a = none := by simpa [cellsLookup, hd] using h
      rw [if_neg hlt]
      by_cases hdb : d = b <;> simp_all [cellsLookup]

/-- A place reads back what was put there; every other place is as before. -/
theorem cellsLookup_put (m : List (Nat × Word)) (a b : Nat) (v : Word) :
    cellsLookup (cellsInsert (cellsErase m a) a v) b = if b = a then some v else cellsLookup m b := by
  rw [cellsLookup_insert (by simp [cellsLookup_erase])]
  by_cases h : b = a <;> simp [h, cellsLookup_erase]

theorem mem_cellsErase {m : List (Nat × Word)} {a : Nat} {c : Nat × Word} :
    c ∈ cellsErase m a ↔ c ∈ m ∧ c.1 ≠ a := by
  induction m with
  | nil => simp [cellsErase]
  | cons d rest ih =>
    simp only [cellsErase]
    split <;> grind

theorem mem_cellsInsert {m : List (Nat × Word)} {a : Nat} {v : Word} {c : Nat × Word} :
    c ∈ cellsInsert m a v ↔ c = (a, v) ∨ c ∈ m := by
  induction m with
  | nil => simp [cellsInsert]
  | cons d rest ih =>
    simp only [cellsInsert]
    split <;> grind

theorem cellsErase_rising {m : List (Nat × Word)} (h : cellsRising m) (a : Nat) : cellsRising (cellsErase m a) := by
  refine ⟨?_, fun c hc => h.2 c (mem_cellsErase.mp hc).1⟩
  have hp := h.1
  clear h
  induction m with
  | nil => simp [cellsErase]
  | cons d rest ih =>
    obtain ⟨hd, hrest⟩ := List.pairwise_cons.mp hp
    simp only [cellsErase]
    split
    · exact ih hrest
    · exact List.pairwise_cons.mpr ⟨fun c hc => hd c (mem_cellsErase.mp hc).1, ih hrest⟩

theorem cellsInsert_rising {m : List (Nat × Word)} (h : cellsRising m) {a : Nat} (ha : a < 65536)
    (hfree : ∀ c ∈ m, c.1 ≠ a) (v : Word) : cellsRising (cellsInsert m a v) := by
  refine ⟨?_, fun c hc => ?_⟩
  · have hp := h.1
    clear h
    induction m with
    | nil => simp [cellsInsert]
    | cons d rest ih =>
      obtain ⟨hd, hrest⟩ := List.pairwise_cons.mp hp
      have hda : d.1 ≠ a := hfree d List.mem_cons_self
      simp only [cellsInsert]
      split
      · rename_i hlt
        refine List.pairwise_cons.mpr ⟨fun c hc => ?_, hp⟩
        rcases List.mem_cons.mp hc with rfl | hc
        · exact hlt
        · exact Nat.lt_trans hlt (hd c hc)
      · rename_i hlt
        refine List.pairwise_cons.mpr
          ⟨fun c hc => ?_, ih (fun c hc => hfree c (List.mem_cons_of_mem _ hc)) hrest⟩
        rcases mem_cellsInsert.mp hc with rfl | hc
        · simp only at hda hlt ⊢
          omega
        · exact hd c hc
  · rcases mem_cellsInsert.mp hc with rfl | hc
    · exact ha
    · exact h.2 c hc

/-- Putting a cell keeps the order of the addresses and their range. -/
theorem cellsPut_rising {m : List (Nat × Word)} (h : cellsRising m) (a v : Word) :
    cellsRising (cellsInsert (cellsErase m a.toNat) a.toNat v) :=
  cellsInsert_rising (cellsErase_rising h _) a.isLt (fun _ hc => (mem_cellsErase.mp hc).2) v

/-- Read after write of the memory space (R42). -/
theorem Memory.read_write (m : Memory) (a v b : Word) :
    (m.write a v).read b = if b = a then v else m.read b := by
  simp only [Memory.read, Memory.write]
  by_cases hv : v = Config.unlistedCell
  · rw [if_pos hv, cellsLookup_erase]
    by_cases hb : b = a
    · simp [hb, hv]
    · have hne : b.toNat ≠ a.toNat := fun hc => hb (BitVec.eq_of_toNat_eq hc)
      simp [hb, hne]
  · rw [if_neg hv, cellsLookup_put]
    by_cases hb : b = a
    · simp [hb]
    · have hne : b.toNat ≠ a.toNat := fun hc => hb (BitVec.eq_of_toNat_eq hc)
      simp [hb, hne]

/-- Writing memory keeps its canonical form. -/
theorem Memory.write_wf {m : Memory} (h : m.wf) (a v : Word) : (m.write a v).wf := by
  simp only [Memory.write]
  split
  · exact ⟨cellsErase_rising h.1 _, fun c hc => h.2 c (mem_cellsErase.mp hc).1⟩
  · rename_i hv
    refine ⟨cellsPut_rising h.1 a v, fun c hc => ?_⟩
    rcases mem_cellsInsert.mp hc with rfl | hc
    · exact hv
    · exact h.2 c (mem_cellsErase.mp hc).1

/-- The memory of the reset state is canonical. -/
theorem reset_mem_wf : State.reset.mem.wf := by decide

/-- A load of one program word keeps the form of the program text. -/
theorem ProgramText.place_wf {p : ProgramText} (h : p.wf) (a w : Word) : (p.place a w).wf :=
  cellsPut_rising h a w

/-- The program text after one word is placed. -/
theorem ProgramText.fetch_place (p : ProgramText) (a w b : Word) :
    (p.place a w).fetch b = if b = a then some w else p.fetch b := by
  simp only [ProgramText.fetch, ProgramText.place, cellsLookup_put, BitVec.toNat_inj]

/-- Every read of the memory space after a write to it. -/
theorem readMem_writeMem (s : State) (a v b : Word) :
    readMem (writeMem s a v) b = if b = a then v else readMem s b :=
  Memory.read_write s.mem a v b

end Sys2Proof.Machine
end

