-- ==== Sys2Proof/Laws/Ops.lean ====
section
/-!
SUPPORT. What each shared way to end an instruction can do, said once.
-/

namespace Sys2Proof.Machine

/-- `raise` never gives a next state (R200). -/
@[simp] theorem raise_ne_next (f : Fault) (t : State) : raise f ≠ .next t := nofun

theorem endAt_next {s t : State} {p : Word} : endAt s p = .next t ↔ t = setPc s p := by
  simp [endAt, eq_comm]

theorem advance_next {s t : State} : advance s = .next t ↔ t = setPc s (nextPc s) := endAt_next

theorem writeBack_next {rd : RegIdx} {v : Word} {s t : State} :
    writeBack rd v s = .next t ↔ t = setPc (writeReg s rd v) (nextPc s) := advance_next

/-- A data access goes on only outside the program text (R45). -/
theorem dataAccess_next {s t : State} {a : Word} {r : Result} :
    dataAccess s a r = .next t ↔ inProgram s a = false ∧ r = .next t := by
  unfold dataAccess
  cases inProgram s a <;> simp

/-- A data access inside the program text is the fault CodeAccess (R45). -/
theorem dataAccess_inProgram {s : State} {a : Word} {r : Result} (h : inProgram s a = true) :
    dataAccess s a r = .fault (.codeAccess s.pc a) := by
  simp [dataAccess, h, raise]

/-- A division gives a next state only past both of its faults (R145). -/
theorem divideWith_next {signed : Bool} {rd : RegIdx} {a b : Word} {s t : State} :
    divideWith signed rd a b s = .next t ↔
      b ≠ 0#16 ∧ quotientOverflows signed a b = false ∧
        t = setPc (writeReg s rd (quotient signed a b)) (nextPc s) := by
  unfold divideWith
  by_cases hb : b = 0#16
  · simp [hb]
  · cases ho : quotientOverflows signed a b <;> simp [hb, writeBack_next]

/-- The pc advances modulo 65536 (R25). -/
theorem nextPc_toNat (s : State) : (nextPc s).toNat = (s.pc.toNat + 1) % 65536 := by
  simp [nextPc, BitVec.toNat_add]

end Sys2Proof.Machine
end

