-- ==== Sys2Proof/Laws/PerInstr.lean ====
section
/-!
SUPPORT. For every instruction: its encoded word matches its row of spec/opcode_table.json, that is, the word under the
row's mask is the row's match value.
-/

namespace Sys2Proof.Laws.EncodesToRow

/-- The mask and match columns of spec/opcode_table.json. -/
def rowOf (i : Instr) : Word × Word :=
  match i with
  | .ldr _ _ => (0xFF00, 0x2000)
  | .ldrio _ _ => (0xFF00, 0x2200)
  | .str _ _ => (0xFF00, 0x2400)
  | .strio _ _ => (0xFF00, 0x2600)
  | .jmr _ _ _ => (0xFD00, 0x2800)
  | .jmi _ _ => (0xFC00, 0x2C00)
  | .anr _ _ _ => (0xF000, 0x3000)
  | .ani _ _ => (0xF000, 0x4000)
  | .msi _ _ => (0xF000, 0x5000)
  | .mhi _ _ => (0xF000, 0x6000)
  | .slr _ _ _ => (0xF000, 0x7000)
  | .sar _ _ _ => (0xF000, 0x8000)
  | .add _ _ _ => (0xF000, 0x9000)
  | .sub _ _ _ => (0xF000, 0xA000)
  | .adi _ _ => (0xF000, 0xB000)
  | .sui _ _ => (0xF000, 0xC000)
  | .mul _ _ _ => (0xF000, 0xD000)
  | .div _ _ _ => (0xF000, 0xE000)
  | .cmr _ _ => (0xFF00, 0xF000)
  | .cmi _ _ => (0xFE00, 0xF200)
  | .brc _ _ => (0xFE00, 0xF400)
  | .brr _ _ => (0xFE00, 0xF600)
  | .shi _ _ _ => (0xFC00, 0xF800)
  | .ntr _ _ _ => (0xFE00, 0xFC00)
  | .ntd _ _ => (0xFEF0, 0xFE00)

/-- The encoded word lies in the instruction's row of the opcode table. -/
def Statement (i : Instr) : Prop := encode i &&& (rowOf i).1 = (rowOf i).2

/-- The mask of a layout taken apart like the layout itself. -/
theorem and_concat {m n : Nat} (a b : BitVec m) (c d : BitVec n) :
    (a ++ c) &&& (b ++ d) = (a &&& b) ++ (c &&& d) := BitVec.and_append

theorem ldr (rd rs1 : RegIdx) : Statement (.ldr rd rs1) := by
  show (0b00100000#8 ++ rs1 ++ rd) &&& (0xFF#8 ++ 0#4 ++ 0#4) = _
  simp only [and_concat, BitVec.and_zero]
  rfl

theorem ldrio (rd rs1 : RegIdx) : Statement (.ldrio rd rs1) := by
  show (0b00100010#8 ++ rs1 ++ rd) &&& (0xFF#8 ++ 0#4 ++ 0#4) = _
  simp only [and_concat, BitVec.and_zero]
  rfl

theorem str (rd rs1 : RegIdx) : Statement (.str rd rs1) := by
  show (0b00100100#8 ++ rs1 ++ rd) &&& (0xFF#8 ++ 0#4 ++ 0#4) = _
  simp only [and_concat, BitVec.and_zero]
  rfl

theorem strio (rd rs1 : RegIdx) : Statement (.strio rd rs1) := by
  show (0b00100110#8 ++ rs1 ++ rd) &&& (0xFF#8 ++ 0#4 ++ 0#4) = _
  simp only [and_concat, BitVec.and_zero]
  rfl

theorem jmr (save : Bool) (rd rs1 : RegIdx) : Statement (.jmr save rd rs1) := by
  show (0b001010#6 ++ BitVec.ofBool save ++ 0#1 ++ rs1 ++ rd) &&& (0b111111#6 ++ 0#1 ++ 1#1 ++ 0#4 ++ 0#4) = _
  simp only [and_concat, BitVec.and_zero]
  rfl

theorem jmi (rd : RegIdx) (imm : BitVec 6) : Statement (.jmi rd imm) := by
  show (0b001011#6 ++ imm ++ rd) &&& (0b111111#6 ++ 0#6 ++ 0#4) = _
  simp only [and_concat, BitVec.and_zero]
  rfl

theorem anr (rd rs1 rs2 : RegIdx) : Statement (.anr rd rs1 rs2) := by
  show (0b0011#4 ++ rs1 ++ rs2 ++ rd) &&& (0xF#4 ++ 0#4 ++ 0#4 ++ 0#4) = (_ : BitVec (4 + 4 + 4 + 4))
  simp only [and_concat, BitVec.and_zero]
  rfl

theorem ani (rd : RegIdx) (imm : BitVec 8) : Statement (.ani rd imm) := by
  show (0b0100#4 ++ imm ++ rd) &&& (0xF#4 ++ 0#8 ++ 0#4) = _
  simp only [and_concat, BitVec.and_zero]
  rfl

theorem msi (rd : RegIdx) (imm : BitVec 8) : Statement (.msi rd imm) := by
  show (0b0101#4 ++ imm ++ rd) &&& (0xF#4 ++ 0#8 ++ 0#4) = _
  simp only [and_concat, BitVec.and_zero]
  rfl

theorem mhi (rd : RegIdx) (imm : BitVec 8) : Statement (.mhi rd imm) := by
  show (0b0110#4 ++ imm ++ rd) &&& (0xF#4 ++ 0#8 ++ 0#4) = _
  simp only [and_concat, BitVec.and_zero]
  rfl

theorem slr (rd rs1 rs2 : RegIdx) : Statement (.slr rd rs1 rs2) := by
  show (0b0111#4 ++ rs1 ++ rs2 ++ rd) &&& (0xF#4 ++ 0#4 ++ 0#4 ++ 0#4) = (_ : BitVec (4 + 4 + 4 + 4))
  simp only [and_concat, BitVec.and_zero]
  rfl

theorem sar (rd rs1 rs2 : RegIdx) : Statement (.sar rd rs1 rs2) := by
  show (0b1000#4 ++ rs1 ++ rs2 ++ rd) &&& (0xF#4 ++ 0#4 ++ 0#4 ++ 0#4) = (_ : BitVec (4 + 4 + 4 + 4))
  simp only [and_concat, BitVec.and_zero]
  rfl

theorem add (rd rs1 rs2 : RegIdx) : Statement (.add rd rs1 rs2) := by
  show (0b1001#4 ++ rs1 ++ rs2 ++ rd) &&& (0xF#4 ++ 0#4 ++ 0#4 ++ 0#4) = (_ : BitVec (4 + 4 + 4 + 4))
  simp only [and_concat, BitVec.and_zero]
  rfl

theorem sub (rd rs1 rs2 : RegIdx) : Statement (.sub rd rs1 rs2) := by
  show (0b1010#4 ++ rs1 ++ rs2 ++ rd) &&& (0xF#4 ++ 0#4 ++ 0#4 ++ 0#4) = (_ : BitVec (4 + 4 + 4 + 4))
  simp only [and_concat, BitVec.and_zero]
  rfl

theorem adi (rd : RegIdx) (imm : BitVec 8) : Statement (.adi rd imm) := by
  show (0b1011#4 ++ imm ++ rd) &&& (0xF#4 ++ 0#8 ++ 0#4) = _
  simp only [and_concat, BitVec.and_zero]
  rfl

theorem sui (rd : RegIdx) (imm : BitVec 8) : Statement (.sui rd imm) := by
  show (0b1100#4 ++ imm ++ rd) &&& (0xF#4 ++ 0#8 ++ 0#4) = _
  simp only [and_concat, BitVec.and_zero]
  rfl

theorem mul (rd rs1 rs2 : RegIdx) : Statement (.mul rd rs1 rs2) := by
  show (0b1101#4 ++ rs1 ++ rs2 ++ rd) &&& (0xF#4 ++ 0#4 ++ 0#4 ++ 0#4) = (_ : BitVec (4 + 4 + 4 + 4))
  simp only [and_concat, BitVec.and_zero]
  rfl

theorem div (rd rs1 rs2 : RegIdx) : Statement (.div rd rs1 rs2) := by
  show (0b1110#4 ++ rs1 ++ rs2 ++ rd) &&& (0xF#4 ++ 0#4 ++ 0#4 ++ 0#4) = (_ : BitVec (4 + 4 + 4 + 4))
  simp only [and_concat, BitVec.and_zero]
  rfl

theorem cmr (rs1 rs2 : RegIdx) : Statement (.cmr rs1 rs2) := by
  show (0b11110000#8 ++ rs2 ++ rs1) &&& (0xFF#8 ++ 0#4 ++ 0#4) = _
  simp only [and_concat, BitVec.and_zero]
  rfl

theorem cmi (imm : BitVec 5) (rs1 : RegIdx) : Statement (.cmi imm rs1) := by
  show (0b1111001#7 ++ imm ++ rs1) &&& (0b1111111#7 ++ 0#5 ++ 0#4) = _
  simp only [and_concat, BitVec.and_zero]
  rfl

theorem brc (fib : BitVec 5) (rd : RegIdx) : Statement (.brc fib rd) := by
  show (0b1111010#7 ++ fib ++ rd) &&& (0b1111111#7 ++ 0#5 ++ 0#4) = _
  simp only [and_concat, BitVec.and_zero]
  rfl

theorem brr (fib : BitVec 5) (rd : RegIdx) : Statement (.brr fib rd) := by
  show (0b1111011#7 ++ fib ++ rd) &&& (0b1111111#7 ++ 0#5 ++ 0#4) = _
  simp only [and_concat, BitVec.and_zero]
  rfl

theorem shi (kind : ShiftKind) (rd : RegIdx) (shimm : BitVec 5) : Statement (.shi kind rd shimm) := by
  show (0b111110#6 ++ BitVec.ofBool (laBit kind) ++ shimm ++ rd) &&& (0b111111#6 ++ 0#1 ++ 0#5 ++ 0#4) = _
  simp only [and_concat, BitVec.and_zero]
  rfl

theorem ntr (c : Complement) (rd rs1 : RegIdx) : Statement (.ntr c rd rs1) := by
  show (0b1111110#7 ++ BitVec.ofBool (complementBit c) ++ rs1 ++ rd) &&& (0b1111111#7 ++ 0#1 ++ 0#4 ++ 0#4) = _
  simp only [and_concat, BitVec.and_zero]
  rfl

theorem ntd (c : Complement) (rd : RegIdx) : Statement (.ntd c rd) := by
  show (0b1111111#7 ++ BitVec.ofBool (complementBit c) ++ 0#4 ++ rd) &&& (0b1111111#7 ++ 0#1 ++ 0xF#4 ++ 0#4) = _
  simp only [and_concat, BitVec.and_zero]
  rfl

end Sys2Proof.Laws.EncodesToRow
end

