-- ==== Sys2Proof/Laws/Step.lean ====
section
/-!
SUPPORT. What a step can do, said once: it gives a next state only by executing the instruction its fetched word
decodes to.
-/

namespace Sys2Proof.Machine

theorem step_next {s t : State} (h : step s = .next t) :
    s.endPc ≠ some s.pc ∧ ∃ w i, fetchWord s = some w ∧ decode w = .instr i ∧ exec i s = .next t := by
  unfold step at h
  by_cases he : s.endPc = some s.pc
  · simp [runIsOver, he] at h
  · refine ⟨he, ?_⟩
    simp only [runIsOver, he, decide_false, Bool.false_eq_true, if_false] at h
    split at h
    · simp at h
    · rename_i w hw
      split at h
      · simp at h
      · rename_i i hi
        exact ⟨w, i, hw, hi, h⟩

end Sys2Proof.Machine
end

