-- ==== Sys2Proof/Tests/Slice0.lean ====
section
/-!
SUPPORT. Tests of the model on values from the spec (spec/95_test_vectors.md and the example lines of the instruction
rules), and a witness for each statement that has hypotheses.
-/

namespace Sys2Proof.Tests

open Sys2Proof Sys2Proof.Machine Sys2Proof.Safety

/-! ### Decoding: words written out from the layouts of R62 to R68, field by field (95_test_vectors.md 1.1 and 2.1) -/

/-- `0010 00 0 0 0010 0011`. -/
theorem test_decode_ldr :
    decode 0b0010000000100011 = .instr (.ldr 3 2) := by decide

/-- `0010 00 1 0 1111 0000`. -/
theorem test_decode_ldrio :
    decode 0b0010001011110000 = .instr (.ldrio 0 15) := by decide

/-- `0010 01 0 0 0001 0010`. -/
theorem test_decode_str :
    decode 0b0010010000010010 = .instr (.str 2 1) := by decide

/-- `0010 01 1 0 0010 0001`. -/
theorem test_decode_strio :
    decode 0b0010011000100001 = .instr (.strio 1 2) := by decide

/-- `0010 10 0 0 0010 0000`. -/
theorem test_decode_jmr :
    decode 0b0010100000100000 = .instr (.jmr false 0 2) := by decide

/-- `0010 10 1 0 0010 0011`. -/
theorem test_decode_jmr_save :
    decode 0b0010101000100011 = .instr (.jmr true 3 2) := by decide

/-- `0010 11 100000 0011`. -/
theorem test_decode_jmi :
    decode 0b0010111000000011 = .instr (.jmi 3 0b100000) := by decide

/-- `0011 0011 0010 0101`. -/
theorem test_decode_anr :
    decode 0b0011001100100101 = .instr (.anr 5 3 2) := by decide

/-- `0100 11111010 0101`. -/
theorem test_decode_ani :
    decode 0b0100111110100101 = .instr (.ani 5 250) := by decide

/-- `0101 11001000 0101`. -/
theorem test_decode_msi :
    decode 0b0101110010000101 = .instr (.msi 5 200) := by decide

/-- `0110 01100100 0101`. -/
theorem test_decode_mhi :
    decode 0b0110011001000101 = .instr (.mhi 5 100) := by decide

/-- `0111 0010 0011 0101`. -/
theorem test_decode_slr :
    decode 0b0111001000110101 = .instr (.slr 5 2 3) := by decide

/-- `1000 0010 0011 0101`. -/
theorem test_decode_sar :
    decode 0b1000001000110101 = .instr (.sar 5 2 3) := by decide

/-- `1001 0011 0001 0100`. -/
theorem test_decode_add :
    decode 0b1001001100010100 = .instr (.add 4 3 1) := by decide

/-- `1010 1111 0010 0010`. -/
theorem test_decode_sub :
    decode 0b1010111100100010 = .instr (.sub 2 15 2) := by decide

/-- `1011 10010110 0101`. -/
theorem test_decode_adi :
    decode 0b1011100101100101 = .instr (.adi 5 150) := by decide

/-- `1100 10010110 0101`. -/
theorem test_decode_sui :
    decode 0b1100100101100101 = .instr (.sui 5 150) := by decide

/-- `1101 0101 0010 0110`. -/
theorem test_decode_mul :
    decode 0b1101010100100110 = .instr (.mul 6 5 2) := by decide

/-- `1110 0010 0011 0100`. -/
theorem test_decode_div :
    decode 0b1110001000110100 = .instr (.div 4 2 3) := by decide

/-- `1111 000 0 0010 0011`. -/
theorem test_decode_cmr :
    decode 0b1111000000100011 = .instr (.cmr 3 2) := by decide

/-- `1111 001 11110 0010`. -/
theorem test_decode_cmi :
    decode 0b1111001111100010 = .instr (.cmi 30 2) := by decide

/-- `1111 010 11111 0010`. -/
theorem test_decode_brc :
    decode 0b1111010111110010 = .instr (.brc 0b11111 2) := by decide

/-- `1111 011 00001 0010`. -/
theorem test_decode_brr :
    decode 0b1111011000010010 = .instr (.brr 0b00001 2) := by decide

/-- `1111 10 0 11100 0101`. -/
theorem test_decode_shi_logical :
    decode 0b1111100111000101 = .instr (.shi .logical 5 0b11100) := by decide

/-- `1111 10 1 00011 0101`. -/
theorem test_decode_shi_arithmetic :
    decode 0b1111101000110101 = .instr (.shi .arithmetic 5 3) := by decide

/-- `1111 11 0 1 0010 0101`. -/
theorem test_decode_ntr :
    decode 0b1111110100100101 = .instr (.ntr .twos 5 2) := by decide

/-- `1111 11 1 0 0000 0101`. -/
theorem test_decode_ntd :
    decode 0b1111111000000101 = .instr (.ntd .ones 5) := by decide

/-- 95_test_vectors.md 2.2, with the nearest legal word. -/
theorem test_decode_reserved_opcodes :
    decode 0x0000 = .reserved .opcode ∧ decode 0x1FFF = .reserved .opcode ∧ decode 0x2000 = .instr (.ldr 0 0) := by decide

/-- The nine words of 95_test_vectors.md 2.2 with an unused bit set. -/
theorem test_decode_reserved_blank_bits :
    [0x2123, 0x2323, 0x2523, 0x2723, 0x2923, 0x2B23, 0xF123, 0xFE15, 0xFFF5].all
      (fun w => decide (decode w = .reserved .blankBit)) = true := by decide

theorem test_decodeTableWord :
    decodeTableWord 16 0xE325 = some (.div 5 3 2) ∧ decodeTableWord 16 0x0000 = none := by decide

/-- Encodings of 95_test_vectors.md 2.1. -/
theorem test_encode_words :
    encode (.jmi 15 3) = 0x2C3F ∧ encode (.shi .logical 5 0b11100) = 0xF9C5 ∧ encode (.ntd .twos 5) = 0xFF05 ∧
      encode (.strio 1 2) = 0x2621 ∧ encode (.cmr 3 2) = 0xF023 := by decide

/-! ### Well-formedness: an ill-formed term for each check, which the check refuses -/

theorem test_wf_reserved_opcode :
    opcodeAssigned 0x1FFF = false ∧ opcodeAssigned 0x2000 = true := by decide

theorem test_wf_mem_jump_blank :
    memJumpBlankClear 0x2123 = false ∧ memJumpBlankClear 0x2023 = true ∧ memJumpBlankClear 0x2D23 = true := by decide

theorem test_wf_cmr_blank :
    cmrBlankClear 0xF123 = false ∧ cmrBlankClear 0xF023 = true ∧ cmrBlankClear 0xF3E2 = true := by decide

theorem test_wf_ntd_blank :
    ntdBlankClear 0xFE15 = false ∧ ntdBlankClear 0xFE05 = true ∧ ntdBlankClear 0xFC15 = true := by decide

theorem test_wf_word :
    wordWellFormed 0x1FFF = false ∧ wordWellFormed 0x2123 = false ∧ wordWellFormed 0xF123 = false ∧
      wordWellFormed 0xFE15 = false ∧ wordWellFormed 0x2023 = true := by decide

theorem test_wf_asm_register :
    assemble ⟨.NTD, [.reg 16]⟩ = none ∧ assemble ⟨.NTD, [.reg 15]⟩ = some (.ntd .ones 15) := by decide

/-- R78: the literal ranges; the source's JMI r3 32 is outside its own (C5), ADI r5 150 is the field 0x96. -/
theorem test_wf_asm_literals :
    assemble ⟨.JMI, [.reg 3, .lit 32]⟩ = none ∧ assemble ⟨.JMI, [.reg 3, .lit (-32)]⟩ = some (.jmi 3 0b100000) ∧
      assemble ⟨.ADI, [.reg 5, .lit 256]⟩ = none ∧ assemble ⟨.ADI, [.reg 5, .lit 150]⟩ = some (.adi 5 0x96) ∧
      assemble ⟨.SHIl, [.reg 5, .lit 16]⟩ = none ∧ assemble ⟨.BRC, [.lit 32, .reg 2]⟩ = none := by decide

/-- R74, R76, R77. -/
theorem test_asm_examples :
    assemble ⟨.CMI, [.lit 30, .reg 2]⟩ = some (.cmi 0b11110 2) ∧
      assemble ⟨.ADR, [.reg 5, .reg 2, .reg 3]⟩ = some (.add 5 2 3) ∧
      statementOf (.shi .logical 5 0b11100) = ⟨.SHIl, [.reg 5, .lit (-4)]⟩ ∧
      wordFormat (.ani 5 250) = .iType ∧ wordFormat (.brc 1 2) = .rType := by decide

/-! ### Instructions (95_test_vectors.md section 3) -/

/-- The reset state with some registers set. -/
def withRegs (l : List (RegIdx × Word)) : State := l.foldl (fun s p => writeReg s p.1 p.2) State.reset

/-- The reset state at a pc with some registers set. -/
def atPc (p : Word) (l : List (RegIdx × Word)) : State := setPc (withRegs l) p

/-- A field of the next state, if there is one. -/
def after {α : Type} (r : Result) (f : State → α) : Option α :=
  match r with
  | .next t => some (f t)
  | .fault _ => none
  | .refused _ => none

/-- The fault, if there is one. -/
def faultOf (r : Result) : Option Fault :=
  match r with
  | .next _ => none
  | .fault f => some f
  | .refused _ => none

/-- The value of a register in the next state, if there is one. -/
def regAfter (r : Result) (q : RegIdx) : Option Word := after r (fun t => readReg t q)

theorem test_ldr :
    regAfter (exec (.ldr 3 2) (writeMem (withRegs [(2, 0x0100)]) 0x0100 0xBEEF)) 3 = some 0xBEEF := by decide

theorem test_ldr_code_access :
    faultOf (exec (.ldr 3 2) (placeNext (withRegs [(2, 0)]) 0x2023)) = some (.codeAccess 0 0) := by decide

/-- The draw is free: the event and the register hold the same one. -/
theorem test_ldrio_event :
    after (exec (.ldrio 3 2) (withRegs [(2, 0x0010)])) (fun t => (t.io, readReg t 3)) =
      some ([.read 0x0010 (Config.ioRead [] 0x0010)], Config.ioRead [] 0x0010) := rfl

theorem test_str_then_load :
    after (exec (.str 3 2) (withRegs [(3, 0x0200), (2, 0xFFFF)])) (fun t => (readMem t 0x0200, readMem t 0x0201)) =
      some (0xFFFF, 0) := by decide

theorem test_str_address_is_data :
    after (exec (.str 3 3) (withRegs [(3, 0x0200)])) (fun t => readMem t 0x0200) = some 0x0200 := by decide

theorem test_strio :
    after (exec (.strio 3 2) (withRegs [(3, 0x0010), (2, 0x00FF)])) (fun t => (t.io, t.mem)) =
      some ([.write 0x0010 0x00FF], []) := by decide

theorem test_jmr_save_overlap :
    after (exec (.jmr true 2 2) (atPc 0x0040 [(2, 0x0010)])) (fun t => (t.pc, readReg t 2)) = some (0x0050, 0x0041) := by decide

theorem test_jmr_wraps :
    after (exec (.jmr false 0 2) (atPc 0xFFFF [(2, 0x0002)])) (fun t => (t.pc, readReg t 0)) = some (0x0001, 0) := by decide

theorem test_jmi_back :
    after (exec (.jmi 3 0b100000) (atPc 0x0100 [])) (fun t => (t.pc, readReg t 3)) = some (0x00E0, 0x0101) := by decide

theorem test_jmi_wraps :
    after (exec (.jmi 3 1) (atPc 0xFFFF [])) (fun t => (t.pc, readReg t 3)) = some (0x0000, 0x0000) := by decide

theorem test_anr :
    regAfter (exec (.anr 5 3 2) (withRegs [(3, 0xF0F0), (2, 0x3C3C)])) 5 = some 0x3030 := by decide

theorem test_anr_overlap :
    regAfter (exec (.anr 5 5 2) (withRegs [(5, 0xFFFF), (2, 0x0000)])) 5 = some 0x0000 := by decide

theorem test_ani :
    regAfter (exec (.ani 5 250) (withRegs [(5, 0xABCD)])) 5 = some 0x00C8 := by decide

theorem test_msi :
    regAfter (exec (.msi 5 200) (withRegs [(5, 0x1234)])) 5 = some 0xFFC8 := by decide

theorem test_msi_positive :
    regAfter (exec (.msi 5 127) (withRegs [(5, 0xFFFF)])) 5 = some 0x007F := by decide

theorem test_mhi :
    regAfter (exec (.mhi 5 250) (withRegs [(5, 0xABCD)])) 5 = some 0xFACD := by decide

theorem test_slr_low_bits :
    regAfter (exec (.slr 5 2 3) (withRegs [(2, 0x00F0), (3, 0x0024)])) 5 = some 0x000F := by decide

theorem test_slr_left :
    regAfter (exec (.slr 5 2 3) (withRegs [(2, 0x00F0), (3, 0xFFFC)])) 5 = some 0x0F00 := by decide

theorem test_sar_right :
    regAfter (exec (.sar 5 2 3) (withRegs [(2, 0x8000), (3, 0x0003)])) 5 = some 0xF000 := by decide

theorem test_sar_left :
    regAfter (exec (.sar 5 2 3) (withRegs [(2, 0xC001), (3, 0x001F)])) 5 = some 0x8002 := by decide

theorem test_add_wraps :
    regAfter (exec (.add 5 2 3) (withRegs [(2, 0xFFFF), (3, 0x0001)])) 5 = some 0x0000 := by decide

theorem test_sub_borrows :
    regAfter (exec (.sub 5 2 3) (withRegs [(2, 0x0005), (3, 0x0007)])) 5 = some 0xFFFE := by decide

theorem test_adi :
    regAfter (exec (.adi 5 0x96) (withRegs [(5, 0x0100)])) 5 = some 0x0096 := by decide

theorem test_sui :
    regAfter (exec (.sui 5 0x96) (withRegs [(5, 0x0100)])) 5 = some 0x016A := by decide

/-- MUL under both values of the open MUL_SIGNED. -/
theorem test_mul_readings :
    [true, false].map (fun sg => mulHigh sg 0x8000 0x0002) = [0xFFFF, 0x0001] ∧
      [true, false].map (fun sg => mulHigh sg 0xFFFF 0xFFFF) = [0x0000, 0xFFFE] := by decide

/-- DIV under both values of the open DIV_SIGNED. -/
theorem test_div_readings :
    [true, false].map (fun sg => quotient sg 0xFFF9 0x0002) = [0xFFFD, 0x7FFC] ∧
      [true, false].map (fun sg => quotientOverflows sg 0x8000 0xFFFF) = [true, false] := by decide

theorem test_div_by_zero :
    faultOf (exec (.div 5 3 2) (atPc 0x0052 [(3, 0x1234)])) = some (.divideByZero 0x0052) := by decide

/-- CMI 30 r2 with x2 = 0005, under both values of the open CMP_SIGNED. -/
theorem test_compare_readings :
    [true, false].map (fun sg => let t := compareWith sg State.reset 0xFFFE 0x0005; (t.g, t.l, t.e)) =
      [(false, true, false), (true, false, false)] := by decide

/-- rs2 stands on the left of the comparison. -/
theorem test_cmr_direction :
    exec (.cmr 3 2) (withRegs [(3, 5), (2, 7)]) =
      .next (setPc (compareWith Config.cmpSigned (withRegs [(3, 5), (2, 7)]) 7 5) 1) := rfl

/-- D16: E is cleared. -/
theorem test_compare_clears :
    let t := compareWith true (setFlags State.reset false false true) 7 5; (t.g, t.l, t.e) = (true, false, false) := by decide

theorem test_brc :
    after (exec (.brc 1 2) (atPc 0x0020 [(2, 0x0100)])) (fun t => t.pc) =
      some (if Config.fibEval 1 false false false then 0x0100 else 0x0021) := rfl

theorem test_brr :
    after (exec (.brr 1 2) (atPc 0x0020 [(2, 0xFFFC)])) (fun t => t.pc) =
      some (if Config.fibEval 1 false false false then 0x001C else 0x0021) := rfl

theorem test_shi_logical :
    regAfter (exec (.shi .logical 5 3) (withRegs [(5, 0x8010)])) 5 = some 0x1002 := by decide

theorem test_shi_left_sixteen :
    regAfter (exec (.shi .arithmetic 5 0b10000) (withRegs [(5, 0xFFFF)])) 5 = some 0x0000 := by decide

theorem test_ntr_ones :
    regAfter (exec (.ntr .ones 5 2) (withRegs [(2, 0x00FF)])) 5 = some 0xFF00 := by decide

theorem test_ntr_twos :
    regAfter (exec (.ntr .twos 5 2) (withRegs [(2, 0x8000)])) 5 = some 0x8000 := by decide

theorem test_ntd_twos :
    regAfter (exec (.ntd .twos 5) (withRegs [(5, 0x1234)])) 5 = some 0xEDCC := by decide

/-! ### Steps, memory form and the first instruction after a load -/

/-- MSI r5 100. -/
theorem test_step_runs_first_word :
    regAfter (step (State.reset.withFetchWord 16 0x5645)) 5 = some 0x0064 := by decide

theorem test_step_reserved :
    faultOf (step (State.reset.withFetchWord 16 0x1FFF)) = some (.reservedInstruction 0 0x1FFF) := by decide

theorem test_memory_canonical :
    (((State.reset.mem.write 5 7).write 2 9).write 5 0).wf ∧
      ((State.reset.mem.write 5 7).write 2 9).write 5 0 = State.reset.mem.write 2 9 := by decide

/-! ### Witnesses: for each statement with hypotheses, a state and operands that meet them together -/

theorem witness_EncodeOfDecode :
    decode 0x2A23 = .instr (.jmr true 3 2) := by decide

theorem witness_ReservedOpcodeFaults :
    (0x1FFF#16).toNat < 0x2000 ∧ (State.reset.withFetchWord 16 0x1FFF).endPc ≠ some (State.reset.withFetchWord 16 0x1FFF).pc ∧
      fetchWord (State.reset.withFetchWord 16 0x1FFF) = some 0x1FFF := by decide

theorem witness_BlankBitWordsFault_mem_jump :
    memJumpBlankClear 0x2923 = false ∧ (State.reset.withFetchWord 16 0x2923).endPc ≠ some (State.reset.withFetchWord 16 0x2923).pc ∧
      fetchWord (State.reset.withFetchWord 16 0x2923) = some 0x2923 := by decide

theorem witness_BlankBitWordsFault_cmr :
    cmrBlankClear 0xF123 = false ∧ (State.reset.withFetchWord 16 0xF123).endPc ≠ some (State.reset.withFetchWord 16 0xF123).pc ∧
      fetchWord (State.reset.withFetchWord 16 0xF123) = some 0xF123 := by decide

theorem witness_BlankBitWordsFault_ntd :
    ntdBlankClear 0xFFF5 = false ∧ (State.reset.withFetchWord 16 0xFFF5).endPc ≠ some (State.reset.withFetchWord 16 0xFFF5).pc ∧
      fetchWord (State.reset.withFetchWord 16 0xFFF5) = some 0xFFF5 := by decide

/-- A launched state: MSI r5 100 at 0x0040, END_PC after it, x[2] = 0x0040 and x[3] = 0x0200. -/
def launched : State := { placeNext (atPc 0x0040 [(2, 0x0040), (3, 0x0200)]) 0x5645 with endPc := some 0x0041 }

theorem witness_StepRunsDecodedInstruction :
    launched.endPc ≠ some launched.pc ∧ launched.prog.fetch launched.pc = some 0x5645 ∧
      decode 0x5645 = .instr (.msi 5 100) := by decide

theorem witness_FetchOutsideProgramFaults :
    (setPc launched 0x0042).endPc ≠ some (setPc launched 0x0042).pc ∧
      (setPc launched 0x0042).prog.fetch (setPc launched 0x0042).pc = none := by decide

theorem witness_RunIsOverAtEndPc :
    (setPc launched 0x0041).endPc = some (setPc launched 0x0041).pc := by decide

theorem witness_LoadedWordRunsNext :
    decode 0x5645 = .instr (.msi 5 100) ∧ (0x0001 : Word) ≠ launched.pc := by decide

/-- Both cases of END_PC: taken away where it was the pc, kept where it was not. -/
theorem witness_LoadedWordRunsNext_endPc :
    (setPc launched 0x0041).endPc = some (setPc launched 0x0041).pc ∧
      ((setPc launched 0x0041).withFetchWord 16 0x5645).endPc = none ∧
      launched.endPc ≠ some launched.pc ∧ (launched.withFetchWord 16 0x5645).endPc = some 0x0041 := by decide

theorem witness_LdrLoadsOneCell_outside :
    inProgram launched (readReg launched 3) = false := by decide

theorem witness_LdrLoadsOneCell_inside :
    inProgram launched (readReg launched 2) = true := by decide

/-- `rd` = 3. -/
theorem witness_StrStoresOneCell_outside :
    inProgram launched (readReg launched 3) = false := by decide

/-- `rd` = 2. -/
theorem witness_StrStoresOneCell_inside :
    inProgram launched (readReg launched 2) = true := by decide

theorem witness_DivWritesQuotient_zero :
    readReg (withRegs [(1, 0x8000)]) 2 = 0x0000 := by decide

theorem witness_DivWritesQuotient_overflow :
    readReg (withRegs [(1, 0x8000), (2, 0xFFFF)]) 1 = 0x8000 ∧ readReg (withRegs [(1, 0x8000), (2, 0xFFFF)]) 2 = 0xFFFF := by decide

theorem witness_DivWritesQuotient_quotient :
    readReg (withRegs [(1, 0x8000), (2, 0xFFFE)]) 2 ≠ 0x0000 ∧
      ¬(readReg (withRegs [(1, 0x8000), (2, 0xFFFE)]) 1 = 0x8000 ∧ readReg (withRegs [(1, 0x8000), (2, 0xFFFE)]) 2 = 0xFFFF) := by decide

theorem witness_StepKeepsInv :
    Inv launched ∧ step launched = .next (setPc (writeReg launched 5 0x0064) 0x0041) := ⟨by decide, rfl⟩

theorem witness_FlagsWrittenOnlyByCompares :
    exec (.cmr 3 2) launched = .next (setPc (compareWith Config.cmpSigned launched 0x0040 0x0200) 0x0041) ∧
      isCompare (.cmr 3 2) = true ∧ exec (.msi 5 100) launched = .next (setPc (writeReg launched 5 0x0064) 0x0041) ∧
      isCompare (.msi 5 100) = false := ⟨rfl, rfl, rfl, rfl⟩

theorem witness_FlagsReadOnlyByBranches :
    isBranch (.cmr 3 2) = false ∧ isBranch (.ldr 3 2) = false := by decide

theorem witness_StepKeepsOneFlag :
    OneFlag (setFlags launched true false false) ∧
      step (setFlags launched true false false) = .next (setPc (writeReg (setFlags launched true false false) 5 0x0064) 0x0041) := ⟨by decide, rfl⟩

theorem witness_StepKeepsOneFlag_compare :
    fetchWord (placeNext launched 0xF023) = some 0xF023 ∧ decode 0xF023 = .instr (.cmr 3 2) ∧ isCompare (.cmr 3 2) = true ∧
      step (placeNext launched 0xF023) =
        .next (setPc (compareWith Config.cmpSigned (placeNext launched 0xF023) 0x0040 0x0200) 0x0041) := ⟨by decide, by decide, rfl, rfl⟩

theorem witness_NextPcIsTheTables :
    exec (.jmi 3 0b100000) launched = .next (setPc (writeReg launched 3 0x0041) 0x0020) := rfl

theorem witness_RegistersWrittenAreTheTables :
    exec (.str 3 2) launched = .next (setPc (writeMem launched 0x0200 0x0040) 0x0041) ∧ 3 ∉ writesOf (.str 3 2) := ⟨rfl, by decide⟩

theorem witness_UnreadRegisterHasNoEffect :
    (3 : RegIdx) ∉ readsOf (.add 3 2 1) ∧ (4 : RegIdx) ∉ readsOf (.str 3 2) := by decide

theorem witness_IoEventsInProgramOrder :
    exec (.strio 3 2) launched = .next (setPc (ioWrite launched 0x0200 0x0040) 0x0041) := rfl

theorem witness_MemoryWrittenOnlyByStr :
    exec (.str 3 2) launched = .next (setPc (writeMem launched 0x0200 0x0040) 0x0041) := rfl

theorem witness_RunKeepsLaunchAndHistory :
    Host.Core.run Sys2Proof.core 1 launched = .next (setPc (writeReg launched 5 0x0064) 0x0041) := rfl

/-- The address register is 3, the data register 2. -/
theorem witness_LoadAfterStoreGivesStoredValue :
    exec (.str 3 2) launched = .next (setPc (writeMem launched 0x0200 0x0040) 0x0041) := rfl

theorem witness_ReturnByComputedOffset :
    exec (.jmi 3 0b100000) launched = .next (setPc (writeReg launched 3 0x0041) 0x0020) ∧
      readReg (atPc 0x0020 [(4, 0x0021)]) 4 =
        trunc16 ((readReg (setPc (writeReg launched 3 0x0041) 0x0020) 3).toNat - (atPc 0x0020 [(4, 0x0021)]).pc.toNat) := ⟨rfl, by decide⟩

theorem witness_JmiToItselfRunsForever :
    (placeNext launched 0x2C03).endPc ≠ some (placeNext launched 0x2C03).pc ∧
      fetchWord (placeNext launched 0x2C03) = some 0x2C03 ∧ decode 0x2C03 = .instr (.jmi 3 0) := by decide

/-- One clause each, at the boundary 0x8000. -/
theorem witness_SignednessReadingsAgree :
    ((0x7FFF#16).toNat < 0x8000 ∧ (0x0001#16).toNat < 0x8000 ∧ (0x0001#16) ≠ 0) ∧
      ((0xFFFF#16).toNat < 0x8000 ↔ (0x8000#16).toNat < 0x8000) ∧
      ¬((0x7FFF#16).toNat < 0x8000 ↔ (0x8000#16).toNat < 0x8000) := by decide

/-- The bit indices of the statements on ANR, ANI, MSI, NTR and NTD, at their boundaries. -/
theorem witness_BitRanges_AnrAniMsiNtr :
    (15 : Nat) < 16 ∧ (7 : Nat) < 8 ∧ (8 : Nat) ≤ 8 ∧ (8 : Nat) < 16 := by decide

end Sys2Proof.Tests
end

section
/-!
PROOFS. The scope of a step (spec/00_scope.md R11): while the run is not over, what step answers is fixed by the word
fetched at the pc and by what that word decodes to.
-/

namespace Sys2Proof.Machine

/-- D23 in the model's form (log entry 7): a run is over exactly at END_PC. -/
@[simp] theorem runIsOver_eq_false_iff (s : State) : runIsOver s = false ↔ s.endPc ≠ some s.pc :=
  decide_eq_false_iff_not

/-- The completing branch of step, for a caller that knows the word and the instruction it decodes to. -/
theorem step_eq_exec {s : State} {w : Word} {i : Instr} (hrun : s.endPc ≠ some s.pc)
    (hfetch : fetchWord s = some w) (hdecode : decode w = .instr i) : step s = exec i s := by
  have hover : runIsOver s = false := (runIsOver_eq_false_iff s).mpr hrun
  simp [step, hover, hfetch, hdecode]

/-- Settles O7: the word the statement reads in PROG is the one step fetches. -/
theorem stepRunsDecodedInstruction : Obligations.StepRunsDecodedInstruction := by
  intro s w i hrun hfetch hdecode
  exact step_eq_exec hrun hfetch hdecode

end Sys2Proof.Machine
end

section
/-!
PROOFS. Who reads the flags (spec/10_state.md R30): no instruction answers a refusal, and the flags of the state an
instruction starts from reach the next state of an instruction other than BRC and BRR as they are or, where it compares,
not at all.
-/

namespace Sys2Proof.Machine

open Sys2Proof.Safety

/-! ### No instruction is refused -/

theorem endAt_ne_refused (s : State) (t : Word) (q : Refusal) : endAt s t ≠ .refused q := nofun

theorem dataAccess_ne_refused {s : State} {a : Word} {r : Result} {q : Refusal} (h : r ≠ .refused q) :
    dataAccess s a r ≠ .refused q := by
  unfold dataAccess
  split
  · nofun
  · exact h

theorem divideWith_ne_refused (signed : Bool) (rd : RegIdx) (a b : Word) (s : State) (q : Refusal) :
    divideWith signed rd a b s ≠ .refused q := by
  unfold divideWith
  split
  · nofun
  · split
    · nofun
    · exact endAt_ne_refused _ _ q

/-- LDR and STR end in a data access, DIV in a division, every other instruction at a next pc. -/
theorem exec_ne_refused (i : Instr) (s : State) (q : Refusal) : exec i s ≠ .refused q := by
  cases i with
  | ldr | str => exact dataAccess_ne_refused (endAt_ne_refused _ _ q)
  | div => exact divideWith_ne_refused _ _ _ _ s q
  | _ => exact endAt_ne_refused _ _ q

/-! ### What each way to end an instruction does with the flags -/

/-- An answer with the flags of its next state replaced. -/
def setNextFlags (g l e : Bool) (r : Result) : Result :=
  match r with
  | .next t => .next (setFlags t g l e)
  | .fault f => .fault f
  | .refused q => .refused q

section
variable (s : State) (g l e : Bool)

@[simp] theorem setNextFlags_next : setNextFlags g l e (.next s) = .next (setFlags s g l e) := rfl
@[simp] theorem setNextFlags_fault (f : Fault) : setNextFlags g l e (.fault f) = .fault f := rfl

theorem writeBack_setFlags (rd : RegIdx) (v : Word) :
    writeBack rd v (setFlags s g l e) = setNextFlags g l e (writeBack rd v s) := rfl

theorem inProgram_setFlags (a : Word) : inProgram (setFlags s g l e) a = inProgram s a := rfl

theorem dataAccess_setFlags (a : Word) {r r' : Result} (h : r' = setNextFlags g l e r) :
    dataAccess (setFlags s g l e) a r' = setNextFlags g l e (dataAccess s a r) := by
  simp only [dataAccess, inProgram_setFlags, apply_ite (setNextFlags g l e), h]
  rfl

theorem divideWith_setFlags (signed : Bool) (rd : RegIdx) (a b : Word) :
    divideWith signed rd a b (setFlags s g l e) = setNextFlags g l e (divideWith signed rd a b s) := by
  simp only [divideWith, writeBack_setFlags, apply_ite (setNextFlags g l e)]
  rfl

end

/-! ### What each instruction does with the flags -/

/-- R29, R30: an instruction that is neither a branch nor a compare carries the flags along. -/
theorem exec_setFlags_of_not_compare {i : Instr} (hbranch : isBranch i = false) (hcompare : isCompare i = false)
    (s : State) (g l e : Bool) : exec i (setFlags s g l e) = setNextFlags g l e (exec i s) := by
  cases i with
  | brc | brr => cases hbranch
  | cmr | cmi => cases hcompare
  | ldr | str => exact dataAccess_setFlags s g l e _ rfl
  | div => exact divideWith_setFlags s g l e _ _ _ _
  | jmr save => cases save <;> rfl
  | _ => rfl

/-- D16 (log entry 18): a compare writes all three flags, so that the old ones are lost. -/
theorem exec_setFlags_of_compare {i : Instr} (hcompare : isCompare i = true) (s : State) (g l e : Bool) :
    exec i (setFlags s g l e) = exec i s := by
  cases i with
  | cmr | cmi => rfl
  | _ => cases hcompare

theorem exec_setFlags {i : Instr} (hbranch : isBranch i = false) (s : State) (g l e : Bool) :
    exec i (setFlags s g l e) = if isCompare i then exec i s else setNextFlags g l e (exec i s) := by
  split
  · next hcompare => exact exec_setFlags_of_compare hcompare s g l e
  · next hcompare => exact exec_setFlags_of_not_compare hbranch (Bool.eq_false_of_not_eq_true hcompare) s g l e

/-! ### The pc of a branch -/

/-- A sum of words is the integer sum of their unsigned values modulo 65536 (R8). -/
theorem add_eq_trunc16 (a b : Word) : a + b = trunc16 (a.toNat + b.toNat) := by
  simp [trunc16, BitVec.ofInt_add]

theorem nextPc_eq_trunc16 (s : State) : nextPc s = trunc16 (s.pc.toNat + 1) := add_eq_trunc16 s.pc 1

/-- Settles O39: the answer from other flags is the same answer with those flags, or the same answer where the
instruction compares; and a branch looks at the flags through FIB_eval only (R163). -/
theorem flagsReadOnlyByBranches : Obligations.FlagsReadOnlyByBranches := by
  refine ⟨fun i s g l e hbranch => ?_, fun fib rd s => ⟨⟨_, rfl, ?_⟩, ⟨_, rfl, ?_⟩⟩⟩
  · rw [exec_setFlags hbranch]
    cases hexec : exec i s with
    | next t => cases isCompare i <;> simp
    | fault f => cases isCompare i <;> simp
    | refused q => exact exec_ne_refused i s q hexec
  · simp [conditionHolds, nextPc_eq_trunc16]
  · simp [conditionHolds, nextPc_eq_trunc16, add_eq_trunc16]

end Sys2Proof.Machine
end

section
/-!
PROOFS. The encoder and the decoder are inverse to each other (spec/30_encoding.md R62 to R72), and the decoder refuses
exactly the words that are not well formed.
-/

namespace Sys2Proof

/-! ### The fields of a word written by a layout

A layout is a head of fixed bits followed by operand fields. Of the head the decoder reads the opcode and, under opcodes
0010 and 1111, some of the bits 11 to 8. -/

/-- Layout R3 (R62). -/
theorem fields_concat_r3 (op high mid low : BitVec 4) :
    fieldOpcode (op ++ high ++ mid ++ low) = op ∧ fieldHigh (op ++ high ++ mid ++ low) = high ∧
      fieldMid (op ++ high ++ mid ++ low) = mid ∧ fieldLow (op ++ high ++ mid ++ low) = low := by
  simp only [← BitVec.toNat_inj, fieldOpcode, fieldHigh, fieldMid, fieldLow, toNat_field, toNat_concat]
  omega

/-- Layouts R2X, R2C and R2N (R64, R66, R68). -/
theorem fields_concat_head8 (hd : BitVec 8) (mid low : BitVec 4) :
    fieldOpcode (hd ++ mid ++ low) = hd.extractLsb' 4 4 ∧ fieldMid (hd ++ mid ++ low) = mid ∧
      fieldLow (hd ++ mid ++ low) = low := by
  simp only [← BitVec.toNat_inj, fieldOpcode, fieldMid, fieldLow, toNat_field, toNat_concat]
  omega

theorem bits_concat_head8 (hd : BitVec 8) (mid low : BitVec 4) :
    (hd ++ mid ++ low : Word).getLsbD 11 = hd.getLsbD 3 ∧ (hd ++ mid ++ low : Word).getLsbD 10 = hd.getLsbD 2 ∧
      (hd ++ mid ++ low : Word).getLsbD 9 = hd.getLsbD 1 ∧ (hd ++ mid ++ low : Word).getLsbD 8 = hd.getLsbD 0 := by
  simp only [getLsbD_eq_div, toNat_concat, decide_eq_decide]
  omega

/-- Layout I8 (R63). -/
theorem fields_concat_imm8 (op : BitVec 4) (imm : BitVec 8) (low : BitVec 4) :
    fieldOpcode (op ++ imm ++ low) = op ∧ fieldImm8 (op ++ imm ++ low) = imm ∧ fieldLow (op ++ imm ++ low) = low := by
  simp only [← BitVec.toNat_inj, fieldOpcode, fieldImm8, fieldLow, toNat_field, toNat_concat]
  omega

/-- Layout I6 (R65). -/
theorem fields_concat_imm6 (hd imm : BitVec 6) (low : BitVec 4) :
    fieldOpcode (hd ++ imm ++ low) = hd.extractLsb' 2 4 ∧ fieldImm6 (hd ++ imm ++ low) = imm ∧
      fieldLow (hd ++ imm ++ low) = low := by
  simp only [← BitVec.toNat_inj, fieldOpcode, fieldImm6, fieldLow, toNat_field, toNat_concat]
  omega

theorem bits_concat_imm6 (hd imm : BitVec 6) (low : BitVec 4) :
    (hd ++ imm ++ low : Word).getLsbD 11 = hd.getLsbD 1 ∧ (hd ++ imm ++ low : Word).getLsbD 10 = hd.getLsbD 0 := by
  simp only [getLsbD_eq_div, toNat_concat, decide_eq_decide]
  omega

/-- Layout I5 (R67). -/
theorem fields_concat_imm5 (hd : BitVec 7) (imm : BitVec 5) (low : BitVec 4) :
    fieldOpcode (hd ++ imm ++ low) = hd.extractLsb' 3 4 ∧ fieldImm5 (hd ++ imm ++ low) = imm ∧
      fieldLow (hd ++ imm ++ low) = low := by
  simp only [← BitVec.toNat_inj, fieldOpcode, fieldImm5, fieldLow, toNat_field, toNat_concat]
  omega

theorem bits_concat_imm5 (hd : BitVec 7) (imm : BitVec 5) (low : BitVec 4) :
    (hd ++ imm ++ low : Word).getLsbD 11 = hd.getLsbD 2 ∧ (hd ++ imm ++ low : Word).getLsbD 10 = hd.getLsbD 1 ∧
      (hd ++ imm ++ low : Word).getLsbD 9 = hd.getLsbD 0 := by
  simp only [getLsbD_eq_div, toNat_concat, decide_eq_decide]
  omega

/-! ### Decoding an encoded word

An option bit (S, LA, 1/2C) chooses one of two heads. -/

theorem encode_jmr (save : Bool) (rd rs1 : RegIdx) :
    encode (.jmr save rd rs1) = (if save then 0b00101010#8 else 0b00101000#8) ++ rs1 ++ rd := by
  cases save <;> rfl

theorem encode_shi (kind : ShiftKind) (rd : RegIdx) (shimm : BitVec 5) :
    encode (.shi kind rd shimm) = (if laBit kind then 0b1111101#7 else 0b1111100#7) ++ shimm ++ rd := by
  cases kind <;> rfl

theorem encode_ntr (c : Complement) (rd rs1 : RegIdx) :
    encode (.ntr c rd rs1) = (if complementBit c then 0b11111101#8 else 0b11111100#8) ++ rs1 ++ rd := by
  cases c <;> rfl

theorem encode_ntd (c : Complement) (rd : RegIdx) :
    encode (.ntd c rd) = (if complementBit c then 0b11111111#8 else 0b11111110#8) ++ 0#4 ++ rd := by
  cases c <;> rfl

/-- The opcode and the bits the decoder reads are those of a fixed head, and the operand fields are the operands. -/
theorem decode_encode (i : Instr) : decode (encode i) = .instr i := by
  cases i with
  | ldr | ldrio | str | strio =>
    simp only [encode, decode, decodeMemJump, fields_concat_head8, bits_concat_head8]
    rfl
  | jmr save =>
    simp only [encode_jmr, decode, decodeMemJump, fields_concat_head8, bits_concat_head8]
    cases save <;> rfl
  | jmi =>
    simp only [encode, decode, decodeMemJump, fields_concat_imm6, bits_concat_imm6]
    rfl
  | anr | slr | sar | add | sub | mul | div =>
    simp only [encode, decode, fields_concat_r3]
    rfl
  | ani | msi | mhi | adi | sui =>
    simp only [encode, decode, fields_concat_imm8]
    rfl
  | cmr =>
    simp only [encode, decode, decodeExtended, fields_concat_head8, bits_concat_head8]
    rfl
  | cmi | brc | brr =>
    simp only [encode, decode, decodeExtended, fields_concat_imm5, bits_concat_imm5]
    rfl
  | shi kind =>
    simp only [encode_shi, decode, decodeExtended, fields_concat_imm5, bits_concat_imm5]
    cases kind <;> rfl
  | ntr c =>
    simp only [encode_ntr, decode, decodeExtended, fields_concat_head8, bits_concat_head8]
    cases c <;> rfl
  | ntd c =>
    simp only [encode_ntd, decode, decodeExtended, fields_concat_head8, bits_concat_head8]
    cases c <;> rfl

/-- Settles O2, row by row of R70. -/
theorem decodeOfEncode : Obligations.DecodeOfEncode := decode_encode

/-! ### A word is the concatenation of its fields -/

theorem toNat_ofBool_getLsbD (x : Word) (i : Nat) : (BitVec.ofBool (x.getLsbD i)).toNat = x.toNat / 2 ^ i % 2 := by
  rw [getLsbD_eq_div, BitVec.toNat_ofBool]
  rcases Nat.mod_two_eq_zero_or_one (x.toNat / 2 ^ i) with h | h <;> simp [h]

section
variable (w : Word)

/-- Layout R3 (R62). -/
theorem concat_fields_r3 : fieldOpcode w ++ fieldHigh w ++ fieldMid w ++ fieldLow w = w := by
  simp only [← BitVec.toNat_inj, fieldOpcode, fieldHigh, fieldMid, fieldLow, toNat_field, toNat_concat]
  omega

/-- Layout I8 (R63). -/
theorem concat_fields_imm8 : fieldOpcode w ++ fieldImm8 w ++ fieldLow w = w := by
  simp only [← BitVec.toNat_inj, fieldOpcode, fieldImm8, fieldLow, toNat_field, toNat_concat]
  omega

/-- Layouts R2X, R2C and R2N (R64, R66, R68). -/
theorem concat_fields_head8 : fieldOpcode w ++ BitVec.ofBool (w.getLsbD 11) ++ BitVec.ofBool (w.getLsbD 10) ++
    BitVec.ofBool (w.getLsbD 9) ++ BitVec.ofBool (w.getLsbD 8) ++ fieldMid w ++ fieldLow w = w := by
  simp only [← BitVec.toNat_inj, fieldOpcode, fieldMid, fieldLow, toNat_field, toNat_concat, toNat_ofBool_getLsbD]
  omega

/-- Layout I6 (R65). -/
theorem concat_fields_imm6 : fieldOpcode w ++ BitVec.ofBool (w.getLsbD 11) ++ BitVec.ofBool (w.getLsbD 10) ++
    fieldImm6 w ++ fieldLow w = w := by
  simp only [← BitVec.toNat_inj, fieldOpcode, fieldImm6, fieldLow, toNat_field, toNat_concat, toNat_ofBool_getLsbD]
  omega

/-- Layout I5 (R67). -/
theorem concat_fields_imm5 : fieldOpcode w ++ BitVec.ofBool (w.getLsbD 11) ++ BitVec.ofBool (w.getLsbD 10) ++
    BitVec.ofBool (w.getLsbD 9) ++ fieldImm5 w ++ fieldLow w = w := by
  simp only [← BitVec.toNat_inj, fieldOpcode, fieldImm5, fieldLow, toNat_field, toNat_concat, toNat_ofBool_getLsbD]
  omega

end

/-! ### Encoding a decoded word: the fixed bits of its row stand before its fields -/

theorem encode_of_decodeMemJump {w : Word} {i : Instr} (hop : fieldOpcode w = 0b0010#4)
    (h : decodeMemJump w = .instr i) : encode i = w := by
  have hreg := concat_fields_head8 w
  have himm := concat_fields_imm6 w
  unfold decodeMemJump at h
  split at h <;> cases h
  case h_5 _ _ _ _ h11 h10 h8 =>
    rw [hop, h11, h10, h8] at hreg
    exact hreg
  case h_6 _ _ _ _ h11 h10 =>
    rw [hop, h11, h10] at himm
    exact himm
  all_goals
    next h11 h10 h9 h8 =>
      rw [hop, h11, h10, h9, h8] at hreg
      exact hreg

@[simp] theorem laBit_shiftKindOf (la : Bool) : laBit (shiftKindOf la) = la := by cases la <;> rfl

@[simp] theorem complementBit_complementOf (c : Bool) : complementBit (complementOf c) = c := by cases c <;> rfl

theorem encode_of_decodeExtended {w : Word} {i : Instr} (hop : fieldOpcode w = 0b1111#4)
    (h : decodeExtended w = .instr i) : encode i = w := by
  have hreg := concat_fields_head8 w
  have himm := concat_fields_imm5 w
  unfold decodeExtended at h
  split at h
  case h_1 h11 h10 h9 h8 =>
    cases h
    rw [hop, h11, h10, h9, h8] at hreg
    exact hreg
  case h_2 => cases h
  case h_3 _ _ _ _ h11 h10 h9 | h_4 _ _ _ _ h11 h10 h9 | h_5 _ _ _ _ h11 h10 h9 =>
    cases h
    rw [hop, h11, h10, h9] at himm
    exact himm
  case h_6 _ _ _ _ h11 h10 =>
    cases h
    rw [encode, laBit_shiftKindOf]
    rw [hop, h11, h10] at himm
    exact himm
  case h_7 _ _ _ _ h11 h10 h9 =>
    cases h
    rw [encode, complementBit_complementOf]
    rw [hop, h11, h10, h9] at hreg
    exact hreg
  case h_8 _ _ _ _ h11 h10 h9 =>
    split at h
    · next hmid =>
      cases h
      rw [encode, complementBit_complementOf]
      rw [hop, h11, h10, h9, hmid] at hreg
      exact hreg
    · cases h

theorem fieldOpcode_eq_ofNat {w : Word} {n : Nat} (h : (fieldOpcode w).toNat = n) :
    fieldOpcode w = BitVec.ofNat 4 n := by
  rw [← h, BitVec.ofNat_toNat, BitVec.setWidth_eq]

/-- What the decoder answers, by opcode. -/
theorem decode_cases (w : Word) :
    (fieldOpcode w).toNat < 2 ∧ decode w = .reserved .opcode ∨
    (fieldOpcode w).toNat = 2 ∧ decode w = decodeMemJump w ∨
    (2 < (fieldOpcode w).toNat ∧ (fieldOpcode w).toNat < 15) ∧ (∃ i, decode w = .instr i ∧ encode i = w) ∨
    (fieldOpcode w).toNat = 15 ∧ decode w = decodeExtended w := by
  have hreg := concat_fields_r3 w
  have himm := concat_fields_imm8 w
  unfold decode
  split
  case h_1 hop | h_2 hop => exact .inl ⟨by omega, rfl⟩
  case h_3 hop => exact .inr (.inl ⟨hop, rfl⟩)
  case h_5 hop | h_6 hop | h_7 hop | h_12 hop | h_13 hop =>
    rw [fieldOpcode_eq_ofNat hop] at himm
    exact .inr (.inr (.inl ⟨by omega, _, rfl, himm⟩))
  case h_16 =>
    refine .inr (.inr (.inr ⟨?_, rfl⟩))
    simp only [imp_false] at *
    omega
  all_goals
    next hop =>
      rw [fieldOpcode_eq_ofNat hop] at hreg
      exact .inr (.inr (.inl ⟨by omega, _, rfl, hreg⟩))

theorem encode_of_decode {w : Word} {i : Instr} (h : decode w = .instr i) : encode i = w := by
  rcases decode_cases w with ⟨-, hdec⟩ | ⟨hop, hdec⟩ | ⟨-, j, hdec, hj⟩ | ⟨hop, hdec⟩ <;> rw [hdec] at h
  · cases h
  · exact encode_of_decodeMemJump (fieldOpcode_eq_ofNat hop) h
  · cases h
    exact hj
  · exact encode_of_decodeExtended (fieldOpcode_eq_ofNat hop) h

/-- Settles O3: what the decoder did not read as an operand is the fixed part of the row. -/
theorem encodeOfDecode : Obligations.EncodeOfDecode := fun _ _ => encode_of_decode

/-! ### The reserved words, by the bits the decoder reads -/

section
variable (w : Word)

theorem opcodeAssigned_eq_false_iff : opcodeAssigned w = false ↔ (fieldOpcode w).toNat < 2 := by
  simp only [opcodeAssigned, decide_eq_false_iff_not, fieldOpcode, toNat_field]
  omega

theorem memJumpBlankClear_eq_false_iff : memJumpBlankClear w = false ↔
    (fieldOpcode w).toNat = 2 ∧ ¬(w.getLsbD 11 = true ∧ w.getLsbD 10 = true) ∧ w.getLsbD 8 = true := by
  simp only [memJumpBlankClear, Bool.not_eq_false', Bool.and_eq_true, beq_iff_eq, bne_iff_ne, ne_eq, ← BitVec.toNat_inj,
    fieldOpcode, toNat_field, getLsbD_eq_div, decide_eq_true_eq, BitVec.toNat_ofNat]
  omega

theorem cmrBlankClear_eq_false_iff : cmrBlankClear w = false ↔
    (fieldOpcode w).toNat = 15 ∧ w.getLsbD 11 = false ∧ w.getLsbD 10 = false ∧ w.getLsbD 9 = false ∧
      w.getLsbD 8 = true := by
  simp only [cmrBlankClear, Bool.not_eq_false', Bool.and_eq_true, beq_iff_eq, ← BitVec.toNat_inj, fieldOpcode,
    toNat_field, getLsbD_eq_div, decide_eq_true_eq, decide_eq_false_iff_not, BitVec.toNat_ofNat]
  omega

theorem ntdBlankClear_eq_false_iff : ntdBlankClear w = false ↔
    (fieldOpcode w).toNat = 15 ∧ w.getLsbD 11 = true ∧ w.getLsbD 10 = true ∧ w.getLsbD 9 = true ∧
      fieldMid w ≠ 0#4 := by
  simp only [ntdBlankClear, Bool.not_eq_false', Bool.and_eq_true, beq_iff_eq, bne_iff_ne, ne_eq, ← BitVec.toNat_inj,
    fieldOpcode, fieldMid, toNat_field, getLsbD_eq_div, decide_eq_true_eq, BitVec.toNat_ofNat]
  omega

theorem decodeMemJump_eq_reserved_iff {why : ReservedWord} : decodeMemJump w = .reserved why ↔
    why = .blankBit ∧ ¬(w.getLsbD 11 = true ∧ w.getLsbD 10 = true) ∧ w.getLsbD 8 = true := by
  unfold decodeMemJump
  split
  case h_7 | h_8 => simp_all [eq_comm (a := ReservedWord.blankBit)]
  all_goals simp_all

theorem decodeExtended_eq_reserved_iff {why : ReservedWord} : decodeExtended w = .reserved why ↔
    why = .blankBit ∧
      (w.getLsbD 11 = false ∧ w.getLsbD 10 = false ∧ w.getLsbD 9 = false ∧ w.getLsbD 8 = true ∨
        w.getLsbD 11 = true ∧ w.getLsbD 10 = true ∧ w.getLsbD 9 = true ∧ fieldMid w ≠ 0#4) := by
  unfold decodeExtended
  split
  case h_2 => simp_all [eq_comm (a := ReservedWord.blankBit)]
  case h_8 => simp_all [ite_eq_iff, and_comm, eq_comm (a := ReservedWord.blankBit)]
  all_goals simp_all

theorem decode_eq_reserved_opcode_iff : decode w = .reserved .opcode ↔ opcodeAssigned w = false := by
  rw [opcodeAssigned_eq_false_iff]
  rcases decode_cases w with ⟨hop, hdec⟩ | ⟨hop, hdec⟩ | ⟨hop, i, hdec, -⟩ | ⟨hop, hdec⟩ <;> rw [hdec]
  · simp [hop]
  · simp [hop, decodeMemJump_eq_reserved_iff]
  · simp only [reduceCtorEq, false_iff]
    omega
  · simp [hop, decodeExtended_eq_reserved_iff]

theorem decode_eq_reserved_blankBit_iff : decode w = .reserved .blankBit ↔
    memJumpBlankClear w = false ∨ cmrBlankClear w = false ∨ ntdBlankClear w = false := by
  rw [memJumpBlankClear_eq_false_iff, cmrBlankClear_eq_false_iff, ntdBlankClear_eq_false_iff]
  rcases decode_cases w with ⟨hop, hdec⟩ | ⟨hop, hdec⟩ | ⟨hop, i, hdec, -⟩ | ⟨hop, hdec⟩ <;> rw [hdec]
  · simp only [Decoded.reserved.injEq, reduceCtorEq, false_iff]
    omega
  · simp [hop, decodeMemJump_eq_reserved_iff]
  · simp only [reduceCtorEq, false_iff]
    omega
  · simp [hop, decodeExtended_eq_reserved_iff]

end

theorem exists_instr_iff_not_reserved (d : Decoded) :
    (∃ i, d = .instr i) ↔ d ≠ .reserved .opcode ∧ d ≠ .reserved .blankBit := by
  cases d with
  | instr i => simp
  | reserved why => cases why <;> simp

/-- Settles O4: each reason to refuse a word is one of the ways to be ill formed. -/
theorem decodeAcceptsWellFormedWords : Obligations.DecodeAcceptsWellFormedWords := by
  intro w
  rw [exists_instr_iff_not_reserved, Ne, decode_eq_reserved_opcode_iff, Ne, decode_eq_reserved_blankBit_iff]
  simp [wordWellFormed, and_assoc]

end Sys2Proof
end

section
/-!
PROOFS. Loads and stores (spec/40_load_store.md R100 to R103): what the default end and the write-back change and leave
unchanged, then the four instructions.
-/

namespace Sys2Proof.Machine

open Sys2Proof.Safety

/-! ### Statements with register operands (R75) -/

@[simp] theorem asmReg_toNat (r : RegIdx) : asmReg r.toNat = some r := by
  simp [asmReg, r.isLt]

theorem asmR2_toNat (f : RegIdx → RegIdx → Instr) (rd rs1 : RegIdx) :
    asmR2 f rd.toNat rs1.toNat = some (f rd rs1) := by
  simp [asmR2]

/-! ### The frame of each way to end an instruction -/

section
variable (s : State)

/-- R12: the default end moves the pc alone. -/
theorem advance_frame : ∃ t, advance s = .next t ∧ PcAdvanced s t ∧ OnlyPc s t :=
  ⟨setPc s (nextPc s), rfl, nextPc_toNat s,
    fun _ => rfl, ⟨rfl, rfl, rfl⟩, fun _ => rfl, rfl, ⟨rfl, rfl⟩⟩

theorem sameRegsBut_writeReg (rd : RegIdx) (v : Word) : SameRegsBut s (writeReg s rd v) rd := by
  intro r hr
  rw [readReg_writeReg, if_neg hr]

/-- The write-back replaces one register, then ends by default. -/
theorem writeBack_frame (rd : RegIdx) (v : Word) :
    ∃ t, writeBack rd v s = .next t ∧ readReg t rd = v ∧ PcAdvanced s t ∧ OnlyReg s t rd := by
  obtain ⟨t, hnext, hpc, hregs, hframe⟩ := advance_frame (writeReg s rd v)
  refine ⟨t, hnext, ?_, hpc, fun r hr => ?_, hframe⟩
  · rw [hregs, readReg_writeReg_same]
  · rw [hregs, sameRegsBut_writeReg s rd v r hr]

theorem sameMemoryBut_writeMem (a v : Word) : SameMemoryBut s (writeMem s a v) a := by
  intro b hb
  rw [readMem_writeMem, if_neg hb]

theorem readMem_writeMem_same (a v : Word) : readMem (writeMem s a v) a = v := by
  rw [readMem_writeMem, if_pos rfl]

/-- A data access outside the program text is no fault (R45). -/
theorem dataAccess_of_not_inProgram {a : Word} {r : Result} (h : inProgram s a = false) : dataAccess s a r = r := by
  simp [dataAccess, h]

end

/-! ### The four instructions -/

/-- Settles O11: outside the program text LDR is a write-back of the cell. -/
theorem ldrLoadsOneCell : Obligations.LdrLoadsOneCell := by
  refine fun rd rs1 => ⟨decode_encode (.ldr rd rs1), fun s => ⟨fun hout => ?_, dataAccess_inProgram⟩⟩
  have hexec : exec (.ldr rd rs1) s = writeBack rd (readMem s (readReg s rs1)) s := dataAccess_of_not_inProgram s hout
  rw [hexec]
  exact writeBack_frame s rd _

/-- Settles O12: LDRio is a write-back of the drawn value, from the state in which the read is recorded. -/
theorem ldrioReadsDrawnValue : Obligations.LdrioReadsDrawnValue := by
  refine fun rd rs1 => ⟨decode_encode (.ldrio rd rs1), asmR2_toNat .ldrio rd rs1, fun s => ?_⟩
  obtain ⟨t, hnext, hvalue, hpc, hregs, hflags, hmem, hio, hlaunch⟩ :=
    writeBack_frame (ioRead s (readReg s rs1)).2 rd (ioRead s (readReg s rs1)).1
  exact ⟨t, hnext, hvalue, hio, hpc, hregs, hflags, hmem, hlaunch⟩

/-- Settles O13: outside the program text STR ends by default from the state in which the cell is replaced. -/
theorem strStoresOneCell : Obligations.StrStoresOneCell := by
  refine fun rd rs1 => ⟨decode_encode (.str rd rs1), fun s => ⟨fun hout => ?_, dataAccess_inProgram⟩⟩
  have hexec : exec (.str rd rs1) s = advance (writeMem s (readReg s rd) (readReg s rs1)) :=
    dataAccess_of_not_inProgram s hout
  obtain ⟨t, hnext, hpc, hregs, hflags, hmem, hframe⟩ := advance_frame (writeMem s (readReg s rd) (readReg s rs1))
  refine ⟨t, hexec.trans hnext, ?_, hpc, hregs, hflags, fun a ha => ?_, hframe⟩
  · rw [hmem, readMem_writeMem_same]
  · rw [hmem, sameMemoryBut_writeMem s _ _ a ha]

/-- Settles O14: STRio ends by default from the state in which the write is recorded. -/
theorem strioRecordsWrite : Obligations.StrioRecordsWrite := by
  refine fun rd rs1 => ⟨decode_encode (.strio rd rs1), asmR2_toNat .strio rd rs1, fun s => ?_⟩
  obtain ⟨t, hnext, hpc, hregs, hflags, hmem, hio, hlaunch⟩ :=
    advance_frame (ioWrite s (readReg s rd) (readReg s rs1))
  exact ⟨t, hnext, hio, hpc, hregs, hflags, hmem, hlaunch⟩

end Sys2Proof.Machine
end

section
/-!
PROOFS. Unconditional jumps (spec/41_jump.md R110, R111): an end at a given pc, without and with a register written
before it, then the two instructions.
-/

namespace Sys2Proof.Machine

open Sys2Proof.Safety

/-! ### Statements with a literal operand (R78) -/

theorem asmRI_toNat {w : Nat} (f : RegIdx → BitVec w → Instr) (rd : RegIdx) {v : Option (BitVec w)} {imm : BitVec w}
    (hfield : v = some imm) : asmRI f rd.toNat v = some (f rd imm) := by
  simp [asmRI, hfield]

/-- A literal that is a field's signed reading stands for that field. -/
theorem asmField_toInt {w : Nat} {lo hi : Int} {imm : BitVec w} (hlo : lo ≤ imm.toInt) (hhi : imm.toInt ≤ hi) :
    asmField w lo hi imm.toInt = some imm := by
  rw [asmField, if_pos ⟨hlo, hhi⟩, BitVec.ofInt_toInt]

/-! ### A target relative to the pc -/

/-- A word plus a sign-extended field is the integer sum modulo 65536 (R8, R69). -/
theorem add_sext16_eq_trunc16 {w : Nat} (a : Word) (imm : BitVec w) :
    a + sext16 imm = trunc16 (a.toNat + imm.toInt) := by
  simp [trunc16, sext16, BitVec.signExtend, BitVec.ofInt_add]

/-! ### The frame of an end at a given pc -/

section
variable (s : State) (p : Word)

theorem endAt_frame : ∃ t, endAt s p = .next t ∧ t.pc = p ∧ OnlyPc s t :=
  ⟨setPc s p, rfl, rfl, fun _ => rfl, ⟨rfl, rfl, rfl⟩, fun _ => rfl, rfl, ⟨rfl, rfl⟩⟩

theorem endAt_writeReg_frame (rd : RegIdx) (v : Word) :
    ∃ t, endAt (writeReg s rd v) p = .next t ∧ t.pc = p ∧ readReg t rd = v ∧ OnlyReg s t rd := by
  obtain ⟨t, hnext, hpc, hregs, hframe⟩ := endAt_frame (writeReg s rd v) p
  refine ⟨t, hnext, hpc, ?_, fun r hr => ?_, hframe⟩
  · rw [hregs, readReg_writeReg_same]
  · rw [hregs, sameRegsBut_writeReg s rd v r hr]

end

/-! ### The two instructions -/

/-- Settles O15: both forms end at the same target, S = 1 from the state in which the return address is saved. -/
theorem jmrJumpsRelative : Obligations.JmrJumpsRelative := by
  refine fun rd rs1 => ⟨fun save => decode_encode (.jmr save rd rs1), fun s => ?_⟩
  rw [← add_eq_trunc16, ← nextPc_eq_trunc16]
  exact ⟨endAt_writeReg_frame s _ rd _, endAt_frame s _⟩

/-- Settles O16: the literals of the syntax line, -32 to 31, are the signed readings of the 6-bit field. -/
theorem jmiJumpsAndSaves : Obligations.JmiJumpsAndSaves := by
  refine fun rd imm => ⟨decode_encode (.jmi rd imm), ?_, fun s => ?_⟩
  · have hlo : -32 ≤ imm.toInt := BitVec.le_toInt imm
    have hhi : imm.toInt ≤ 31 := Int.le_of_lt_add_one (BitVec.toInt_lt (x := imm))
    exact asmRI_toNat .jmi rd (asmField_toInt hlo hhi)
  · rw [← add_sext16_eq_trunc16, ← nextPc_eq_trunc16]
    exact endAt_writeReg_frame s _ rd _

end Sys2Proof.Machine
end

section
/-!
PROOFS. Logical AND and immediate moves (spec/42_logic_move.md R120 to R123): the bits of a widened immediate, then the
four instructions, each a write-back of its value.
-/

namespace Sys2Proof.Machine

open Sys2Proof.Safety

/-! ### Statements with three registers or a raw immediate (R75, R78) -/

theorem asmR3_toNat (f : RegIdx → RegIdx → RegIdx → Instr) (rd rs1 rs2 : RegIdx) :
    asmR3 f rd.toNat rs1.toNat rs2.toNat = some (f rd rs1 rs2) := by
  simp [asmR3]

/-- A literal that is a field's unsigned reading stands for that field. -/
theorem asmField_toNat {w : Nat} {lo hi : Int} {imm : BitVec w} (hlo : lo ≤ 0) (hhi : imm.toNat ≤ hi) :
    asmField w lo hi imm.toNat = some imm := by
  rw [asmField, if_pos ⟨hlo.trans (Int.natCast_nonneg _), hhi⟩, BitVec.ofInt_natCast, BitVec.ofNat_toNat,
    BitVec.setWidth_eq]

theorem toNat_imm8_le (imm : BitVec 8) : (imm.toNat : Int) ≤ 255 :=
  Int.ofNat_le.mpr (Nat.le_of_lt_succ imm.isLt)

/-! ### The bits of a widened immediate (R8, R69) -/

section
variable {w i : Nat} (imm : BitVec w) (hi : i < 16)
include hi

theorem getLsbD_zext16 : (zext16 imm).getLsbD i = imm.getLsbD i := by
  rw [zext16, BitVec.getLsbD_setWidth, decide_eq_true hi, Bool.true_and]

theorem getLsbD_sext16_low (hw : i < w) : (sext16 imm).getLsbD i = imm.getLsbD i := by
  rw [sext16, BitVec.getLsbD_signExtend, decide_eq_true hi, Bool.true_and, if_pos hw]

theorem getLsbD_sext16_high (hw : w ≤ i) : (sext16 imm).getLsbD i = imm.getLsbD (w - 1) := by
  rw [sext16, BitVec.getLsbD_signExtend, decide_eq_true hi, Bool.true_and, if_neg hw.not_gt,
    BitVec.msb_eq_getLsbD_last]

end

theorem extractLsb'_sext16 (imm : BitVec 8) : (sext16 imm).extractLsb' 0 8 = imm := by
  refine BitVec.eq_of_getLsbD_eq fun i hi => ?_
  rw [BitVec.getLsbD_extractLsb', decide_eq_true hi, Bool.true_and, Nat.zero_add,
    getLsbD_sext16_low imm (by omega) hi]

/-! ### The four instructions -/

/-- Settles O17: each bit of a conjunction of words is the conjunction of their bits. -/
theorem anrIsBitwiseAnd : Obligations.AnrIsBitwiseAnd := by
  refine fun rd rs1 rs2 => ⟨decode_encode (.anr rd rs1 rs2), asmR3_toNat .anr rd rs1 rs2, fun s => ?_⟩
  obtain ⟨t, hnext, hvalue, hframe⟩ := writeBack_frame s rd (readReg s rs1 &&& readReg s rs2)
  refine ⟨t, hnext, fun i _ => ?_, hframe⟩
  rw [hvalue, BitVec.getLsbD_and]

/-- Settles O18: the mask has the immediate's bits below bit 8 and zeros from there on. -/
theorem aniMasksWithLowByte : Obligations.AniMasksWithLowByte := by
  refine fun rd imm => ⟨decode_encode (.ani rd imm),
    asmRI_toNat .ani rd (asmField_toNat (by decide) (toNat_imm8_le imm)), fun s => ?_⟩
  obtain ⟨t, hnext, hvalue, hframe⟩ := writeBack_frame s rd (readReg s rd &&& zext16 imm)
  have hbit : ∀ i, i < 16 → (readReg t rd).getLsbD i = ((readReg s rd).getLsbD i && imm.getLsbD i) := by
    intro i hi
    rw [hvalue, BitVec.getLsbD_and, getLsbD_zext16 imm hi]
  refine ⟨t, hnext, fun i hi => hbit i (by omega), fun i hlow hi => ?_, hframe⟩
  rw [hbit i hi, BitVec.getLsbD_of_ge imm i hlow, Bool.and_false]

/-- Settles O19: the value written is the sign extension, whatever the register held. -/
theorem msiMovesSignExtended : Obligations.MsiMovesSignExtended := by
  refine fun rd imm => ⟨decode_encode (.msi rd imm),
    asmRI_toNat .msi rd (asmField_toNat (by decide) (toNat_imm8_le imm)), fun s => ?_⟩
  obtain ⟨t, hnext, hvalue, hframe⟩ := writeBack_frame s rd (sext16 imm)
  refine ⟨t, hnext, ?_, fun i hlow hi => ?_, hframe⟩
  · rw [hvalue, extractLsb'_sext16]
  · rw [hvalue, getLsbD_sext16_high imm hi hlow]

/-- Settles O20: the value written is the immediate placed above the old low byte. -/
theorem mhiWritesHighByte : Obligations.MhiWritesHighByte := by
  refine fun rd imm => ⟨decode_encode (.mhi rd imm), fun s => ?_⟩
  obtain ⟨t, hnext, hvalue, hframe⟩ := writeBack_frame s rd (imm ++ lowByte (readReg s rd))
  refine ⟨t, hnext, ?_, ?_, hframe⟩
  · rw [hvalue, BitVec.extractLsb'_append_eq_left]
  · rw [hvalue, BitVec.extractLsb'_append_eq_right, lowByte]

end Sys2Proof.Machine
end

section
/-!
PROOFS. Integer arithmetic (spec/44_arithmetic.md R140 to R145): each operation on words as its rule's operation on
integers, then the six instructions, each a write-back of its value.
-/

namespace Sys2Proof.Machine

open Sys2Proof.Safety

/-! ### Sums and differences modulo 65536 (R146) -/

/-- Reduction modulo 65536 keeps differences (R146). -/
theorem trunc16_sub (m n : Int) : trunc16 (m - n) = trunc16 m - trunc16 n := by
  simp only [trunc16, Int.sub_eq_add_neg, BitVec.ofInt_add, BitVec.ofInt_neg, BitVec.sub_eq_add_neg]

theorem trunc16_toNat (a : Word) : trunc16 a.toNat = a := by
  rw [trunc16, BitVec.ofInt_natCast, BitVec.ofNat_toNat, BitVec.setWidth_eq]

theorem sext16_eq_trunc16 {w : Nat} (imm : BitVec w) : sext16 imm = trunc16 imm.toInt := rfl

section
variable (a b : Word)

/-- The signed readings give the same 16 bits as the unsigned ones (R140). -/
theorem add_eq_trunc16_toInt : a + b = trunc16 (a.toInt + b.toInt) := by
  rw [trunc16, BitVec.ofInt_add, BitVec.ofInt_toInt, BitVec.ofInt_toInt]

theorem sub_eq_trunc16 : a - b = trunc16 (a.toNat - b.toNat) := by
  rw [trunc16_sub, trunc16_toNat, trunc16_toNat]

/-- A word minus a sign-extended field is the integer difference modulo 65536 (R8, R69). -/
theorem sub_sext16_eq_trunc16 {w : Nat} (imm : BitVec w) : a - sext16 imm = trunc16 (a.toNat - imm.toInt) := by
  rw [trunc16_sub, trunc16_toNat, sext16_eq_trunc16]

end

/-! ### The high half of a product (R144) -/

/-- Bits 31:16 of an integer are those of its floor division by 65536. -/
theorem extractLsb'_ofInt32 (p : Int) : (BitVec.ofInt 32 p).extractLsb' 16 16 = trunc16 (p / 65536) := by
  rw [← BitVec.toNat_inj, toNat_field, trunc16, BitVec.toNat_ofInt, BitVec.toNat_ofInt]
  omega

theorem mulHigh_eq_trunc16 (signed : Bool) (a b : Word) :
    mulHigh signed a b = trunc16 (valueOf signed a * valueOf signed b / 65536) := by
  rw [← extractLsb'_ofInt32]
  cases signed with
  | true => rfl
  | false =>
    have hproduct : BitVec.ofNat 32 (a.toNat * b.toNat) = BitVec.ofInt 32 ((a.toNat : Int) * b.toNat) := by
      rw [← BitVec.ofInt_natCast, Int.natCast_mul]
    exact congrArg (BitVec.extractLsb' 16 16) hproduct

/-! ### The quotient (R145) -/

/-- Division truncated toward zero leaves a remainder of the dividend's sign. -/
theorem isQuotient_tdiv (a : Int) {b : Int} (hb : b ≠ 0) : IsQuotient a b (a.tdiv b) := by
  have hrem : a - a.tdiv b * b = a.tmod b := by rw [Int.tmod_def, Int.mul_comm]
  rw [IsQuotient, hrem]
  refine ⟨?_, ?_⟩
  · rw [Int.natAbs_tmod]
    exact Nat.mod_lt _ (Int.natAbs_pos.mpr hb)
  · rcases Int.le_total 0 a with ha | ha
    · exact Int.mul_nonneg (Int.tmod_nonneg b ha) ha
    · have hneg : 0 ≤ -a.tmod b := Int.neg_tmod a b ▸ Int.tmod_nonneg b (Int.neg_nonneg_of_nonpos ha)
      exact Int.mul_nonneg_of_nonpos_of_nonpos (Int.nonpos_of_neg_nonneg hneg) ha

theorem quotientOverflows_eq_true_iff {signed : Bool} {a b : Word} :
    quotientOverflows signed a b = true ↔ (a = 0x8000 ∧ b = 0xFFFF) ∧ signed = true := by
  simp [quotientOverflows]

theorem valueOf_ne_zero {signed : Bool} {b : Word} (hb : b ≠ 0) : valueOf signed b ≠ 0 := by
  cases signed with
  | true => exact fun h => hb (BitVec.eq_of_toInt_eq h)
  | false => exact fun h => hb (BitVec.eq_of_toNat_eq (Int.natCast_eq_zero.mp h))

/-- Where the quotient fits its reading, the word holds it: the signed one misses only 32768. -/
theorem valueOf_quotient {signed : Bool} {a b : Word} (hfits : ¬(a = 0x8000 ∧ b = 0xFFFF)) :
    valueOf signed (quotient signed a b) = (valueOf signed a).tdiv (valueOf signed b) := by
  cases signed with
  | true =>
    have hquot : quotient true a b = a.sdiv b := by
      apply BitVec.eq_of_toInt_eq
      rw [BitVec.toInt_sdiv]
      exact BitVec.toInt_ofInt _
    rw [hquot]
    exact BitVec.toInt_sdiv_of_ne_or_ne a b (not_and_or.mp hfits)
  | false =>
    have hquot : quotient false a b = a / b := BitVec.udiv_def.symm
    rw [hquot]
    exact congrArg Nat.cast BitVec.toNat_udiv

section
variable {signed : Bool} {a b : Word} (rd : RegIdx) (s : State)

theorem divideWith_zero : divideWith signed rd a 0 s = .fault (.divideByZero s.pc) := if_pos rfl

theorem divideWith_overflow (ho : quotientOverflows signed a b = true) (hb : b ≠ 0#16) :
    divideWith signed rd a b s = .fault (.divideOverflow s.pc) := by
  rw [divideWith, if_neg hb, if_pos ho, raise]

/-- Past both faults a division is a write-back of the quotient. -/
theorem divideWith_of_not_overflow (ho : ¬quotientOverflows signed a b = true) (hb : b ≠ 0#16) :
    divideWith signed rd a b s = writeBack rd (quotient signed a b) s := by
  rw [divideWith, if_neg hb, if_neg ho]

end

/-! ### The six instructions -/

/-- Settles O23: both readings of the operands have one sum modulo 65536. -/
theorem addIsModularSum : Obligations.AddIsModularSum := by
  refine fun rd rs1 rs2 => ⟨decode_encode (.add rd rs1 rs2), asmR3_toNat .add rd rs1 rs2, fun s => ?_⟩
  obtain ⟨t, hnext, hvalue, hframe⟩ := writeBack_frame s rd (readReg s rs1 + readReg s rs2)
  refine ⟨t, hnext, ?_, ?_, hframe⟩
  · rw [hvalue, BitVec.toNat_add]
  · rw [hvalue, add_eq_trunc16_toInt]

/-- Settles O24: a difference of words is the integer difference modulo 65536. -/
theorem subIsModularDifference : Obligations.SubIsModularDifference := by
  refine fun rd rs1 rs2 => ⟨decode_encode (.sub rd rs1 rs2), asmR3_toNat .sub rd rs1 rs2, fun s => ?_⟩
  rw [← sub_eq_trunc16]
  exact writeBack_frame s rd _

/-- Settles O25: the literal operand is the raw field (R78), the addend its signed reading. -/
theorem adiAddsSignedImmediate : Obligations.AdiAddsSignedImmediate := by
  refine fun rd imm => ⟨decode_encode (.adi rd imm),
    asmRI_toNat .adi rd (asmField_toNat (by decide) (toNat_imm8_le imm)), fun s => ?_⟩
  rw [← add_sext16_eq_trunc16]
  exact writeBack_frame s rd _

/-- Settles O26: the literal operand is the raw field (R78), what is subtracted its signed reading. -/
theorem suiSubtractsSignedImmediate : Obligations.SuiSubtractsSignedImmediate := by
  refine fun rd imm => ⟨decode_encode (.sui rd imm),
    asmRI_toNat .sui rd (asmField_toNat (by decide) (toNat_imm8_le imm)), fun s => ?_⟩
  rw [← sub_sext16_eq_trunc16]
  exact writeBack_frame s rd _

/-- Settles O27: the high half is a floor division of the exact product under either value of MUL_SIGNED. -/
theorem mulWritesHighHalf : Obligations.MulWritesHighHalf := by
  refine fun rd rs1 rs2 => ⟨decode_encode (.mul rd rs1 rs2), asmR3_toNat .mul rd rs1 rs2, fun s => ?_⟩
  rw [← mulHigh_eq_trunc16]
  exact writeBack_frame s rd _

/-- Settles O28: past the two faults DIV is a write-back of a quotient that fits its reading or, unsigned, of 0. -/
theorem divWritesQuotient : Obligations.DivWritesQuotient := by
  refine fun rd rs1 rs2 => ⟨decode_encode (.div rd rs1 rs2), fun s => ?_⟩
  have hexec : exec (.div rd rs1 rs2) s = divideWith Config.divSigned rd (readReg s rs1) (readReg s rs2) s := rfl
  rw [hexec]
  refine ⟨fun hb => ?_, fun ha hb => ?_, fun hb hfits => ?_⟩
  · rw [hb, divideWith_zero]
  · rw [ha, hb]
    cases Config.divSigned with
    | true => exact divideWith_overflow rd s (by decide) (by decide)
    | false =>
      have hzero : divideWith false rd 0x8000 0xFFFF s = writeBack rd 0 s :=
        divideWith_of_not_overflow rd s (by decide) (by decide)
      rw [hzero]
      exact writeBack_frame s rd 0
  · rw [divideWith_of_not_overflow rd s (fun ho => hfits (quotientOverflows_eq_true_iff.mp ho).1) hb]
    obtain ⟨t, hnext, hvalue, hframe⟩ :=
      writeBack_frame s rd (quotient Config.divSigned (readReg s rs1) (readReg s rs2))
    refine ⟨t, hnext, ?_, hframe⟩
    rw [hvalue, valueOf_quotient hfits]
    exact isQuotient_tdiv _ (valueOf_ne_zero hb)

end Sys2Proof.Machine
end

section
/-!
PROOFS. Conditional branches (spec/45_compare_branch.md R163 to R165): the end the two branches share, then the two
instructions, each with its own target.
-/

namespace Sys2Proof.Machine

open Sys2Proof.Safety

theorem toNat_imm5_le (imm : BitVec 5) : (imm.toNat : Int) ≤ 31 :=
  Int.ofNat_le.mpr (Nat.le_of_lt_succ imm.isLt)

/-- R163: a conditional branch moves the pc alone, to its target where FIB_eval is true and to the next word where it
is false. -/
theorem endAt_branch_frame (s : State) (fib : BitVec 5) (target : Word) :
    ∃ t, endAt s (if conditionHolds s fib then target else nextPc s) = .next t ∧
      t.pc = (if Config.fibEval fib s.g s.l s.e then target else trunc16 (s.pc.toNat + 1)) ∧ OnlyPc s t := by
  rw [← nextPc_eq_trunc16]
  exact endAt_frame s _

/-! ### The two instructions -/

/-- Settles O31: the target of BRC is the register itself. -/
theorem brcBranchesAbsolute : Obligations.BrcBranchesAbsolute := by
  refine fun fib rd => ⟨decode_encode (.brc fib rd), ?_, fun s => endAt_branch_frame s fib (readReg s rd)⟩
  exact asmRI_toNat (fun rd fib => .brc fib rd) rd (asmField_toNat (by decide) (toNat_imm5_le fib))

/-- Settles O32: the target of BRR is the register added to the pc of the BRR itself. -/
theorem brrBranchesRelative : Obligations.BrrBranchesRelative := by
  refine fun fib rd => ⟨decode_encode (.brr fib rd), ?_, fun s => ?_⟩
  · exact asmRI_toNat (fun rd fib => .brr fib rd) rd (asmField_toNat (by decide) (toNat_imm5_le fib))
  · rw [← add_eq_trunc16]
    exact endAt_branch_frame s fib (s.pc + readReg s rd)

end Sys2Proof.Machine
end

section
/-!
PROOFS. What an instruction does, said once: unless it meets its own fault (spec/60_exceptions.md R200), it does something
besides writing registers (memory, flags, I/O), writes one value to the registers the table of R22 lists, and moves the
pc as the table of R26 says. The tables of spec/10_state.md are then facts about one of these parts each.
-/

namespace Sys2Proof.Machine

open Sys2Proof.Safety

/-! ### The parts of an instruction's effect -/

/-- What an instruction does besides writing registers and moving the pc. -/
def sideEffectOf (i : Instr) (s : State) : State :=
  match i with
  | .ldrio _ rs1 => (ioRead s (readReg s rs1)).2
  | .str rd rs1 => writeMem s (readReg s rd) (readReg s rs1)
  | .strio rd rs1 => ioWrite s (readReg s rd) (readReg s rs1)
  | .cmr rs1 rs2 => compareWords s (readReg s rs2) (readReg s rs1)
  | .cmi imm rs1 => compareWords s (sext16 imm) (readReg s rs1)
  | _ => s

/-- The value an instruction writes to the registers of R22's written column; where that is empty, of no account. -/
def writtenValueOf (i : Instr) (s : State) : Word :=
  match i with
  | .ldr _ rs1 => readMem s (readReg s rs1)
  | .ldrio _ rs1 => Config.ioRead s.io (readReg s rs1)
  | .jmr _ _ _ | .jmi _ _ => nextPc s
  | .anr _ rs1 rs2 => readReg s rs1 &&& readReg s rs2
  | .ani rd imm => readReg s rd &&& zext16 imm
  | .msi _ imm => sext16 imm
  | .mhi rd imm => imm ++ lowByte (readReg s rd)
  | .slr _ rs1 rs2 => shift .logical (readReg s rs1) (amountOf (readReg s rs2))
  | .sar _ rs1 rs2 => shift .arithmetic (readReg s rs1) (amountOf (readReg s rs2))
  | .add _ rs1 rs2 => readReg s rs1 + readReg s rs2
  | .sub _ rs1 rs2 => readReg s rs1 - readReg s rs2
  | .adi rd imm => readReg s rd + sext16 imm
  | .sui rd imm => readReg s rd - sext16 imm
  | .mul _ rs1 rs2 => mulHigh Config.mulSigned (readReg s rs1) (readReg s rs2)
  | .div _ rs1 rs2 => quotient Config.divSigned (readReg s rs1) (readReg s rs2)
  | .shi kind rd shimm => shift kind (readReg s rd) shimm
  | .ntr c _ rs1 => complement c (readReg s rs1)
  | .ntd c rd => complement c (readReg s rd)
  | .str _ _ | .strio _ _ | .cmr _ _ | .cmi _ _ | .brc _ _ | .brr _ _ => 0

/-- One value written to each register of a list. -/
def writeRegs (s : State) (l : List RegIdx) (v : Word) : State :=
  match l with
  | [] => s
  | r :: rest => writeRegs (writeReg s r v) rest v

/-- The state an instruction without a fault leads to. -/
def resultOf (i : Instr) (s : State) : State :=
  setPc (writeRegs (sideEffectOf i s) (writesOf i) (writtenValueOf i s)) (nextPcOf i s)

/-! ### The two outcomes of an instruction -/

/-- The faults of DIV, by the words that raise them (R145). -/
theorem ownFault_div (rd rs1 rs2 : RegIdx) (s : State) :
    ownFault (.div rd rs1 rs2) s =
      if readReg s rs2 = 0#16 then some (.divideByZero s.pc)
      else if quotientOverflows Config.divSigned (readReg s rs1) (readReg s rs2) then some (.divideOverflow s.pc)
      else none := by
  have hzero : (readReg s rs2).toNat = 0 ↔ readReg s rs2 = 0#16 := BitVec.toNat_inj (y := 0#16)
  have hmin : (readReg s rs1).toInt = -32768 ↔ readReg s rs1 = 0x8000 := BitVec.toInt_inj (y := 0x8000#16)
  have hminus : (readReg s rs2).toInt = -1 ↔ readReg s rs2 = 0xFFFF := BitVec.toInt_inj (y := 0xFFFF#16)
  simp only [ownFault, hzero, hmin, hminus, quotientOverflows_eq_true_iff, and_comm (b := Config.divSigned = true)]

theorem exec_of_ownFault {i : Instr} {s : State} {f : Fault} (h : ownFault i s = some f) : exec i s = .fault f := by
  cases i with
  | ldr | str =>
    obtain ⟨hin, hf⟩ := Option.ite_none_right_eq_some.mp h
    cases hf
    exact dataAccess_inProgram hin
  | div rd rs1 rs2 =>
    rw [ownFault_div] at h
    split at h
    · next hzero =>
      cases h
      exact if_pos hzero
    · next hzero =>
      obtain ⟨ho, hf⟩ := Option.ite_none_right_eq_some.mp h
      cases hf
      exact divideWith_overflow rd s ho hzero
  | _ => cases h

/-- A write-back leads to the state with the register written and the pc of the table's last row (R26). -/
theorem writeBack_eq (rd : RegIdx) (v : Word) (s : State) :
    writeBack rd v s = .next (setPc (writeReg s rd v) (trunc16 (s.pc.toNat + 1))) := by
  rw [← nextPc_eq_trunc16]
  rfl

theorem advance_eq (s : State) : advance s = .next (setPc s (trunc16 (s.pc.toNat + 1))) := by
  rw [← nextPc_eq_trunc16]
  rfl

theorem exec_of_no_ownFault {i : Instr} {s : State} (h : ownFault i s = none) : exec i s = .next (resultOf i s) := by
  cases i with
  | ldr rd rs1 =>
    have hout : inProgram s (readReg s rs1) = false := by simpa [ownFault] using h
    exact (dataAccess_of_not_inProgram s hout).trans (writeBack_eq rd _ s)
  | str rd rs1 =>
    have hout : inProgram s (readReg s rd) = false := by simpa [ownFault] using h
    exact (dataAccess_of_not_inProgram s hout).trans (advance_eq _)
  | div rd rs1 rs2 =>
    rw [ownFault_div] at h
    split at h
    · cases h
    · next hzero =>
      have ho : ¬quotientOverflows Config.divSigned (readReg s rs1) (readReg s rs2) = true := by simpa using h
      exact (divideWith_of_not_overflow rd s ho hzero).trans (writeBack_eq rd _ s)
  | jmr save rd rs1 =>
    simp only [resultOf, nextPcOf, ← add_eq_trunc16]
    cases save <;> rfl
  | jmi rd imm =>
    simp only [resultOf, nextPcOf, ← add_sext16_eq_trunc16]
    rfl
  | brc fib rd | brr fib rd =>
    simp only [resultOf, nextPcOf, ← add_eq_trunc16, ← nextPc_eq_trunc16]
    rfl
  | strio | cmr | cmi => exact advance_eq _
  | _ => exact writeBack_eq _ _ _

theorem exec_next {i : Instr} {s t : State} : exec i s = .next t ↔ ownFault i s = none ∧ t = resultOf i s := by
  cases hf : ownFault i s with
  | some f => simp [exec_of_ownFault hf]
  | none => simp [exec_of_no_ownFault hf, eq_comm]

/-- Settles O46. -/
theorem execStopsOnlyByOwnFault : Obligations.ExecStopsOnlyByOwnFault := by
  intro i s
  split
  · next f hf => exact exec_of_ownFault hf
  · next hf => exact ⟨_, exec_of_no_ownFault hf⟩

end Sys2Proof.Machine
end

section
/-!
PROOFS. The tables of spec/10_state.md and the frames of every instruction, read off the parts of its effect: the next pc
(R26), the registers written and read (R22), the flags (R29), the I/O events (R44) and the memory space (R42).
-/

namespace Sys2Proof.Machine

open Sys2Proof.Safety

/-! ### What the parts of an effect leave unchanged -/

section
variable (s : State) (l : List RegIdx) (v : Word)

/-- Register writes change the field of the registers alone. -/
theorem writeRegs_eq : writeRegs s l v = { s with regs := (writeRegs s l v).regs } := by
  induction l generalizing s with
  | nil => rfl
  | cons r rest ih => exact ih (writeReg s r v)

@[simp] theorem writeRegs_g : (writeRegs s l v).g = s.g := by rw [writeRegs_eq]
@[simp] theorem writeRegs_l : (writeRegs s l v).l = s.l := by rw [writeRegs_eq]
@[simp] theorem writeRegs_e : (writeRegs s l v).e = s.e := by rw [writeRegs_eq]
@[simp] theorem writeRegs_mem : (writeRegs s l v).mem = s.mem := by rw [writeRegs_eq]
@[simp] theorem writeRegs_io : (writeRegs s l v).io = s.io := by rw [writeRegs_eq]
@[simp] theorem writeRegs_prog : (writeRegs s l v).prog = s.prog := by rw [writeRegs_eq]
@[simp] theorem writeRegs_endPc : (writeRegs s l v).endPc = s.endPc := by rw [writeRegs_eq]

theorem readReg_writeRegs_of_notMem {r : RegIdx} (h : r ∉ l) : readReg (writeRegs s l v) r = readReg s r := by
  induction l generalizing s with
  | nil => rfl
  | cons q rest ih =>
    obtain ⟨hq, hrest⟩ := not_or.mp (mt List.mem_cons.mpr h)
    exact (ih (writeReg s q v) hrest).trans (sameRegsBut_writeReg s q v r hq)

end

section
variable (i : Instr) (s : State)

theorem readReg_sideEffectOf (r : RegIdx) : readReg (sideEffectOf i s) r = readReg s r := by cases i <;> rfl

theorem sameLaunch_sideEffectOf : SameLaunch s (sideEffectOf i s) := by cases i <;> exact ⟨rfl, rfl⟩

theorem sideEffectOf_io : (sideEffectOf i s).io = s.io ++ eventsOf i s := by
  cases i with
  | ldrio | strio => rfl
  | _ => exact (List.append_nil s.io).symm

end

theorem sameFlags_sideEffectOf {i : Instr} (hcompare : isCompare i = false) (s : State) :
    SameFlags s (sideEffectOf i s) := by
  cases i with
  | cmr | cmi => cases hcompare
  | _ => exact ⟨rfl, rfl, rfl⟩

theorem sideEffectOf_mem_wf {s : State} (h : s.mem.wf) (i : Instr) : (sideEffectOf i s).mem.wf := by
  cases i with
  | str => exact Memory.write_wf h _ _
  | _ => exact h

/-! ### The fields of the state an instruction leads to -/

section
variable (i : Instr) (s : State)

@[simp] theorem resultOf_pc : (resultOf i s).pc = nextPcOf i s := rfl
@[simp] theorem resultOf_mem : (resultOf i s).mem = (sideEffectOf i s).mem := writeRegs_mem ..

theorem resultOf_io : (resultOf i s).io = s.io ++ eventsOf i s :=
  (writeRegs_io ..).trans (sideEffectOf_io i s)

theorem sameFlags_resultOf : SameFlags (sideEffectOf i s) (resultOf i s) :=
  ⟨writeRegs_g .., writeRegs_l .., writeRegs_e ..⟩

theorem sameLaunch_resultOf : SameLaunch s (resultOf i s) :=
  ⟨(writeRegs_prog ..).trans (sameLaunch_sideEffectOf i s).1,
    (writeRegs_endPc ..).trans (sameLaunch_sideEffectOf i s).2⟩

theorem readReg_resultOf_of_unwritten {r : RegIdx} (h : r ∉ writesOf i) : readReg (resultOf i s) r = readReg s r :=
  (readReg_writeRegs_of_notMem _ _ _ h).trans (readReg_sideEffectOf i s r)

end

/-! ### The tables -/

/-- Settles O41. -/
theorem nextPcIsTheTables : Obligations.NextPcIsTheTables := by
  intro i s t h
  obtain ⟨-, rfl⟩ := exec_next.mp h
  exact resultOf_pc i s

/-- Settles O42. -/
theorem registersWrittenAreTheTables : Obligations.RegistersWrittenAreTheTables := by
  intro i s t h
  obtain ⟨-, rfl⟩ := exec_next.mp h
  exact ⟨fun r hr => readReg_resultOf_of_unwritten i s hr, sameLaunch_resultOf i s⟩

/-- Settles O44. -/
theorem ioEventsInProgramOrder : Obligations.IoEventsInProgramOrder := by
  intro i s t h
  obtain ⟨-, rfl⟩ := exec_next.mp h
  exact resultOf_io i s

/-- Settles O45: the only side effect on the memory space is the one of STR. -/
theorem memoryWrittenOnlyByStr : Obligations.MemoryWrittenOnlyByStr := by
  intro i s t a h
  obtain ⟨-, rfl⟩ := exec_next.mp h
  have hmem : readMem (resultOf i s) a = readMem (sideEffectOf i s) a :=
    congrArg (Memory.read · a) (resultOf_mem i s)
  rw [hmem]
  cases i with
  | str rd rs1 => exact readMem_writeMem s (readReg s rd) (readReg s rs1) a
  | _ => rfl

/-! ### A register that is not read -/

/-- A write before writes of one value to a list of registers is lost where the list has its register, and can be made
after them where not. -/
theorem writeRegs_writeReg (s : State) (l : List RegIdx) (r : RegIdx) (v x : Word) :
    writeRegs (writeReg s r v) l x = if r ∈ l then writeRegs s l x else writeReg (writeRegs s l x) r v := by
  induction l generalizing s with
  | nil => rfl
  | cons q rest ih =>
    by_cases hq : r = q
    · subst hq
      simp [writeRegs, writeReg_writeReg_same]
    · simp only [writeRegs, writeReg_comm s hq, ih, List.mem_cons, hq, false_or]

section
variable {i : Instr} (s : State) {r : RegIdx} (v : Word) (h : r ∉ readsOf i)
include h

theorem readReg_writeReg_of_read : ∀ q ∈ readsOf i, readReg (writeReg s r v) q = readReg s q := fun q hq =>
  sameRegsBut_writeReg s r v q fun hqr => h (hqr ▸ hq)

theorem ownFault_writeReg : ownFault i (writeReg s r v) = ownFault i s := by
  have hread := readReg_writeReg_of_read s v h
  cases i with
  | ldr | str | div =>
    simp only [readsOf, List.forall_mem_cons] at hread
    simp only [ownFault, hread]
    rfl
  | _ => rfl

theorem nextPcOf_writeReg : nextPcOf i (writeReg s r v) = nextPcOf i s := by
  have hread := readReg_writeReg_of_read s v h
  cases i with
  | jmr | brc | brr =>
    simp only [readsOf, List.forall_mem_cons] at hread
    simp only [nextPcOf, hread]
    rfl
  | _ => rfl

theorem writtenValueOf_writeReg : writtenValueOf i (writeReg s r v) = writtenValueOf i s := by
  have hread := readReg_writeReg_of_read s v h
  cases i with
  | jmr | jmi | msi | str | strio | cmr | cmi | brc | brr => rfl
  | _ =>
    simp only [readsOf, List.forall_mem_cons] at hread
    simp only [writtenValueOf, hread, readMem_writeReg, writeReg_io]

theorem sideEffectOf_writeReg : sideEffectOf i (writeReg s r v) = writeReg (sideEffectOf i s) r v := by
  have hread := readReg_writeReg_of_read s v h
  cases i with
  | ldrio | str | strio | cmr | cmi =>
    simp only [readsOf, List.forall_mem_cons] at hread
    simp only [sideEffectOf, hread]
    rfl
  | _ => rfl

theorem resultOf_writeReg : resultOf i (writeReg s r v) =
    if r ∈ writesOf i then resultOf i s else writeReg (resultOf i s) r v := by
  rw [resultOf, nextPcOf_writeReg s v h, writtenValueOf_writeReg s v h, sideEffectOf_writeReg s v h,
    writeRegs_writeReg, apply_ite (setPc · _)]
  rfl

end

/-- Settles O43: every part of the effect looks at the registers of R22's read column only. -/
theorem unreadRegisterHasNoEffect : Obligations.UnreadRegisterHasNoEffect := by
  intro i s r v h
  have hfault := ownFault_writeReg s v h
  cases hown : ownFault i s with
  | some f => simp [exec_of_ownFault hown, exec_of_ownFault (hfault.trans hown)]
  | none =>
    simp only [exec_of_no_ownFault hown, exec_of_no_ownFault (hfault.trans hown)]
    exact resultOf_writeReg s v h

end Sys2Proof.Machine
end

section
/-!
PROOFS. What every step keeps: the invariant of memory and program text, that exactly one flag is set, and along a whole
run the launch record and the I/O history.
-/

namespace Sys2Proof.Machine

open Sys2Proof.Safety

/-- The next state of a step is the result of the instruction its fetched word decodes to. -/
theorem step_next_resultOf {s t : State} (h : step s = .next t) :
    ∃ w i, fetchWord s = some w ∧ decode w = .instr i ∧ t = resultOf i s := by
  obtain ⟨-, w, i, hfetch, hdecode, hexec⟩ := step_next h
  exact ⟨w, i, hfetch, hdecode, (exec_next.mp hexec).2⟩

/-! ### The invariant -/

/-- Memory is written in canonical form, and the launch record stays. -/
theorem inv_resultOf {s : State} (h : Inv s) (i : Instr) : Inv (resultOf i s) := by
  obtain ⟨hmem, hprog, hend⟩ := h
  obtain ⟨hsameProg, hsameEnd⟩ := sameLaunch_resultOf i s
  refine ⟨?_, ?_, ?_⟩
  · rw [resultOf_mem]
    exact sideEffectOf_mem_wf hmem i
  · rw [hsameProg]
    exact hprog
  · simp only [inProgram, hsameProg, hsameEnd]
    exact hend

/-- Settles O36. -/
theorem stepKeepsInv : Obligations.StepKeepsInv := by
  intro s t hinv hstep
  obtain ⟨-, i, -, -, rfl⟩ := step_next_resultOf hstep
  exact inv_resultOf hinv i

/-- Settles O37: nothing is listed at reset. -/
theorem resetMeetsInv : Obligations.ResetMeetsInv :=
  ⟨⟨reset_mem_wf, by decide, rfl⟩, rfl, rfl, rfl⟩

/-! ### The flags -/

theorem oneFlag_of_sameFlags {s t : State} (hsame : SameFlags s t) (h : OneFlag s) : OneFlag t := by
  obtain ⟨hg, hl, he⟩ := hsame
  rw [OneFlag, hg, hl, he]
  exact h

/-- R160: of greater, less and equal exactly one holds, under either reading. -/
theorem oneFlag_compareWith (signed : Bool) (s : State) (a b : Word) : OneFlag (compareWith signed s a b) := by
  have hsigned : a.toInt = b.toInt ↔ a = b := BitVec.toInt_inj
  have hunsigned : a.toNat = b.toNat ↔ a = b := BitVec.toNat_inj
  simp only [OneFlag, compareWith, setFlags_g, setFlags_l, setFlags_e, isGreater, isLess, isEqual]
  cases signed with
  | true =>
    simp only [if_true, decide_eq_true_eq, decide_eq_false_iff_not, ← hsigned]
    omega
  | false =>
    simp only [Bool.false_eq_true, if_false, decide_eq_true_eq, decide_eq_false_iff_not, ← hunsigned]
    omega

theorem oneFlag_resultOf_of_compare {i : Instr} (hcompare : isCompare i = true) (s : State) :
    OneFlag (resultOf i s) := by
  refine oneFlag_of_sameFlags (sameFlags_resultOf i s) ?_
  cases i with
  | cmr | cmi => exact oneFlag_compareWith _ _ _ _
  | _ => cases hcompare

theorem sameFlags_resultOf_of_not_compare {i : Instr} (hcompare : isCompare i = false) (s : State) :
    SameFlags s (resultOf i s) := by
  obtain ⟨hg, hl, he⟩ := sameFlags_sideEffectOf hcompare s
  obtain ⟨hg', hl', he'⟩ := sameFlags_resultOf i s
  exact ⟨hg'.trans hg, hl'.trans hl, he'.trans he⟩

/-- Settles O38. -/
theorem flagsWrittenOnlyByCompares : Obligations.FlagsWrittenOnlyByCompares := by
  intro i s t h
  obtain ⟨-, rfl⟩ := exec_next.mp h
  split
  · next hcompare => exact oneFlag_resultOf_of_compare hcompare s
  · next hcompare => exact sameFlags_resultOf_of_not_compare (Bool.eq_false_of_not_eq_true hcompare) s

/-- Settles O40: a compare sets exactly one flag, and any other instruction keeps the flags. -/
theorem stepKeepsOneFlag : Obligations.StepKeepsOneFlag := by
  intro s t hstep
  obtain ⟨w, i, hfetch, hdecode, rfl⟩ := step_next_resultOf hstep
  refine ⟨fun hone => ?_, fun w' i' hfetch' hdecode' hcompare => ?_⟩
  · cases hcompare : isCompare i with
    | true => exact oneFlag_resultOf_of_compare hcompare s
    | false => exact oneFlag_of_sameFlags (sameFlags_resultOf_of_not_compare hcompare s) hone
  · obtain rfl : w = w' := Option.some.inj (hfetch.symm.trans hfetch')
    obtain rfl : i = i' := Decoded.instr.inj (hdecode.symm.trans hdecode')
    exact oneFlag_resultOf_of_compare hcompare s

/-! ### Runs -/

/-- A longer run that ends in a state is a step to a state and the rest of the run. -/
theorem run_succ_next {M : Host.Core} {k : Nat} {s t : M.State} (h : M.run (k + 1) s = .next t) :
    ∃ u, M.step s = .next u ∧ M.run k u = .next t := by
  rw [Host.Core.run] at h
  split at h
  · next u hstep => exact ⟨u, hstep, h⟩
  · cases h
  · cases h

theorem run_succ_of_step {M : Host.Core} {s u : M.State} (hstep : M.step s = .next u) (k : Nat) :
    M.run (k + 1) s = M.run k u := by
  rw [Host.Core.run, hstep]

/-- A state that steps to itself is where every run from it ends. -/
theorem run_of_step_self {M : Host.Core} {s : M.State} (hstep : M.step s = .next s) (k : Nat) : M.run k s = .next s := by
  induction k with
  | zero => rfl
  | succ k ih => rw [run_succ_of_step hstep, ih]

theorem eventsOf_length_le_one (i : Instr) (s : State) : (eventsOf i s).length ≤ 1 := by
  cases i with
  | ldrio | strio => exact Nat.le_refl 1
  | _ => exact Nat.zero_le 1

/-- Settles O47, by induction on the number of steps. -/
theorem runKeepsLaunchAndHistory : Obligations.RunKeepsLaunchAndHistory := by
  intro k
  induction k with
  | zero =>
    intro s t h
    cases h
    exact ⟨rfl, rfl, [], (List.append_nil s.io).symm, Nat.le_refl 0⟩
  | succ k ih =>
    intro s t h
    obtain ⟨u, hstep, hrun⟩ := run_succ_next h
    obtain ⟨-, i, -, -, rfl⟩ := step_next_resultOf hstep
    obtain ⟨hprog, hend⟩ := sameLaunch_resultOf i s
    obtain ⟨hprog', hend', events, hio, hlength⟩ := ih _ t hrun
    refine ⟨hprog'.trans hprog, hend'.trans hend, eventsOf i s ++ events, ?_, ?_⟩
    · rw [hio, resultOf_io, List.append_assoc]
    · have hone := eventsOf_length_le_one i s
      rw [List.length_append]
      omega

end Sys2Proof.Machine
end

section
/-!
PROOFS. What a step answers by the word it fetches: nothing past the end of a run, a fault for no word and for a reserved
word (spec/60_exceptions.md R200, R204), the instruction for any other; and what a launch's load of a word changes.
-/

namespace Sys2Proof.Machine

open Sys2Proof.Safety

/-! ### The decoder on fixed words and on reserved ones -/

/-- Settles O1, word by word. -/
theorem specWordsDecode : Obligations.SpecWordsDecode := by
  unfold Obligations.SpecWordsDecode
  decide

/-- R71, R72: a word reserved for either reason faults where it is fetched. -/
theorem step_eq_reservedInstruction {w : Word} {why : ReservedWord} (hdecode : decode w = .reserved why) {s : State}
    (hrun : s.endPc ≠ some s.pc) (hfetch : fetchWord s = some w) :
    step s = .fault (.reservedInstruction s.pc w) := by
  have hover : runIsOver s = false := (runIsOver_eq_false_iff s).mpr hrun
  simp [step, hover, hfetch, hdecode, raise]

/-- Settles O5. -/
theorem reservedOpcodeFaults : Obligations.ReservedOpcodeFaults := by
  intro w hw
  have hdecode : decode w = .reserved .opcode :=
    (decode_eq_reserved_opcode_iff w).mpr (decide_eq_false hw.not_ge)
  exact ⟨hdecode, fun s => step_eq_reservedInstruction hdecode⟩

/-- Settles O6: the encoder's words are not refused, since they decode. -/
theorem blankBitWordsFault : Obligations.BlankBitWordsFault := by
  refine ⟨fun w hblank => ?_, fun i => ?_⟩
  · have hdecode : decode w = .reserved .blankBit := (decode_eq_reserved_blankBit_iff w).mpr hblank
    exact ⟨hdecode, fun s => step_eq_reservedInstruction hdecode⟩
  · have haccepted : decode (encode i) ≠ .reserved .blankBit := by
      rw [decode_encode]
      nofun
    rw [Ne, decode_eq_reserved_blankBit_iff] at haccepted
    simpa using haccepted

/-! ### Where nothing is executed -/

/-- Settles O8. -/
theorem fetchOutsideProgramFaults : Obligations.FetchOutsideProgramFaults := by
  intro s hrun hfetch
  have hover : runIsOver s = false := (runIsOver_eq_false_iff s).mpr hrun
  have hword : fetchWord s = none := hfetch
  simp [step, hover, hword, raise]

/-- Settles O9: the end of the run is looked at before the fetch. -/
theorem runIsOverAtEndPc : Obligations.RunIsOverAtEndPc := by
  intro s hend
  have hover : runIsOver s = true := decide_eq_true hend
  simp [step, hover]

/-! ### The load of a word at the pc -/

theorem tableWord_toNat (w : Word) : tableWord 16 w.toNat = w := by
  rw [tableWord, Nat.mod_eq_of_lt w.isLt, BitVec.ofNat_toNat, BitVec.setWidth_eq]

/-- R226: the pc is no end of run after a load. -/
theorem placeNext_endPc_ne (s : State) (w : Word) : (placeNext s w).endPc ≠ some s.pc := by
  have hend : (placeNext s w).endPc = if s.endPc = some s.pc then none else s.endPc := rfl
  rw [hend]
  split
  · nofun
  · assumption

/-- Settles O10: the word is the one at the pc, and only END_PC and the program text at the pc are touched. -/
theorem loadedWordRunsNext : Obligations.LoadedWordRunsNext := by
  intro s w
  have hload : s.withFetchWord 16 w.toNat = placeNext s w := congrArg (placeNext s) (tableWord_toNat w)
  rw [hload]
  have hfetch : fetchWord (placeNext s w) = some w := by
    rw [fetchWord, placeNext_prog, placeNext_pc, ProgramText.fetch_place, if_pos rfl]
  have hend : (placeNext s w).endPc ≠ some (placeNext s w).pc := placeNext_endPc_ne s w
  refine ⟨hfetch, fun a ha => ?_, rfl, ⟨rfl, rfl, rfl⟩, rfl, rfl, rfl, rfl, hend, fun i => ?_⟩
  · rw [placeNext_prog, ProgramText.fetch_place, if_neg ha]
  · exact step_eq_exec hend hfetch

end Sys2Proof.Machine
end

section
/-!
PROOFS. Shifts (spec/43_shift_registered.md R130 to R133, spec/46_shift_imm_not.md R180), compares
(spec/45_compare_branch.md R160 to R162) and complements (spec/46_shift_imm_not.md R181, R182): each operation on words as
its rule's operation on integers or bits, then the instructions.
-/

namespace Sys2Proof.Machine

open Sys2Proof.Safety

/-! ### Shifts -/

/-- R130: the signed reading of an amount, by its bit 4. -/
theorem signedAmount_eq (a : BitVec 5) :
    signedAmount a = if a.toNat < 16 then (a.toNat : Int) else -((32 - a.toNat : Nat) : Int) := by
  have hlt : a.toNat < 32 := a.isLt
  rw [signedAmount, BitVec.toInt_eq_toNat_cond]
  split <;> split <;> omega

theorem shiftRight_logical (v : Word) (n : Nat) : shiftRight .logical v n = trunc16 ((v.toNat : Int) / 2 ^ n) := by
  have hquot : ((v >>> n).toNat : Int) = (v.toNat : Int) / 2 ^ n := by
    rw [BitVec.toNat_ushiftRight, Nat.shiftRight_eq_div_pow, Int.natCast_ediv, Nat.cast_pow, Nat.cast_ofNat]
  rw [← hquot, trunc16_toNat, shiftRight]

theorem shiftRight_arithmetic (v : Word) (n : Nat) : shiftRight .arithmetic v n = trunc16 (v.toInt / 2 ^ n) := by
  rw [shiftRight, BitVec.sshiftRight, Int.shiftRight_eq_div_pow, Nat.cast_pow, Nat.cast_ofNat, trunc16]

theorem shiftLeft_eq_trunc16 (v : Word) (n : Nat) : shiftLeft v n = trunc16 ((v.toNat : Int) * 2 ^ n) := by
  have hprod : (v.toNat : Int) * 2 ^ n = ((v.toNat <<< n : Nat) : Int) := by
    rw [Nat.shiftLeft_eq, Nat.cast_mul, Nat.cast_pow, Nat.cast_ofNat]
  rw [hprod, trunc16, BitVec.ofInt_natCast]
  rfl

/-- R131: a shift is its integer formula. -/
theorem shift_eq_shiftFormula (kind : ShiftKind) (v : Word) (a : BitVec 5) : shift kind v a = shiftFormula kind v a := by
  have hlt : a.toNat < 32 := a.isLt
  unfold shift shiftFormula
  rw [signedAmount_eq]
  by_cases hright : a.toNat < 16
  · rw [if_pos hright, if_pos hright, if_pos (Int.natCast_nonneg _), Int.toNat_natCast]
    cases kind with
    | logical => exact shiftRight_logical v _
    | arithmetic => exact shiftRight_arithmetic v _
  · rw [if_neg hright, if_neg hright, if_neg (by omega), neg_neg, Int.toNat_natCast]
    exact shiftLeft_eq_trunc16 v _

/-- Settles O21. -/
theorem slrShiftsLogical : Obligations.SlrShiftsLogical := by
  refine fun rd rs1 rs2 => ⟨decode_encode (.slr rd rs1 rs2), fun s => ?_⟩
  rw [← shift_eq_shiftFormula]
  exact writeBack_frame s rd _

/-- Settles O22. -/
theorem sarShiftsArithmetic : Obligations.SarShiftsArithmetic := by
  refine fun rd rs1 rs2 => ⟨decode_encode (.sar rd rs1 rs2), fun s => ?_⟩
  rw [← shift_eq_shiftFormula]
  exact writeBack_frame s rd _

theorem laBit_eq_decide (kind : ShiftKind) : laBit kind = decide (kind = .arithmetic) := by cases kind <;> rfl

/-- Settles O33. -/
theorem shiShiftsByImmediate : Obligations.ShiShiftsByImmediate := by
  refine fun kind rd shimm => ⟨?_, fun s => ?_⟩
  · rw [← laBit_eq_decide]
    exact decode_encode (.shi kind rd shimm)
  · rw [← shift_eq_shiftFormula]
    exact writeBack_frame s rd _

/-! ### Compares -/

section
variable (signed : Bool) (a b : Word)

theorem isGreater_iff : isGreater signed a b = true ↔ valueOf signed b < valueOf signed a := by
  cases signed with
  | true => exact decide_eq_true_iff
  | false => exact decide_eq_true_iff.trans Int.ofNat_lt.symm

/-- R160: less is greater with the operands exchanged. -/
theorem isLess_eq_isGreater : isLess signed a b = isGreater signed b a := rfl

theorem isLess_iff : isLess signed a b = true ↔ valueOf signed a < valueOf signed b := by
  rw [isLess_eq_isGreater, isGreater_iff]

theorem isEqual_iff : isEqual a b = true ↔ a = b := decide_eq_true_iff

end

/-- A compare that ends by default sets the three flags by the order of its operands and moves the pc. -/
theorem advance_compareWords_frame (s : State) (a b : Word) :
    ∃ t, advance (compareWords s a b) = .next t ∧
      (t.g = true ↔ valueOf Config.cmpSigned b < valueOf Config.cmpSigned a) ∧
      (t.l = true ↔ valueOf Config.cmpSigned a < valueOf Config.cmpSigned b) ∧
      (t.e = true ↔ a = b) ∧ PcAdvanced s t ∧ OnlyFlags s t := by
  obtain ⟨t, hnext, hpc, hregs, ⟨hg, hl, he⟩, hframe⟩ := advance_frame (compareWords s a b)
  refine ⟨t, hnext, ?_, ?_, ?_, hpc, hregs, hframe⟩
  · rw [hg]
    exact isGreater_iff _ a b
  · rw [hl]
    exact isLess_iff _ a b
  · rw [he]
    exact isEqual_iff a b

/-- Settles O29: the register on the left is rs2. -/
theorem cmrComparesRegisters : Obligations.CmrComparesRegisters :=
  fun rs1 rs2 => ⟨decode_encode (.cmr rs1 rs2), fun s => advance_compareWords_frame s (readReg s rs2) (readReg s rs1)⟩

/-- Settles O30: the sign extension is the immediate's signed reading modulo 65536. -/
theorem cmiComparesImmediate : Obligations.CmiComparesImmediate := by
  refine fun imm rs1 => ⟨decode_encode (.cmi imm rs1), fun s => ?_⟩
  rw [← sext16_eq_trunc16]
  exact advance_compareWords_frame s (sext16 imm) (readReg s rs1)

/-! ### Complements -/

theorem complement_twos_eq_neg (v : Word) : complement .twos v = -v := (BitVec.neg_eq_not_add v).symm

theorem complement_twos_eq_trunc16 (v : Word) : complement .twos v = trunc16 (65536 - v.toNat) := by
  rw [trunc16_sub, trunc16_toNat, complement_twos_eq_neg]
  exact (BitVec.zero_sub v).symm

theorem getLsbD_complement_ones (v : Word) {i : Nat} (hi : i < 16) :
    (complement .ones v).getLsbD i = !v.getLsbD i := by
  rw [complement, BitVec.getLsbD_not, decide_eq_true hi, Bool.true_and]

/-- A complement undoes itself. -/
theorem complement_complement (c : Complement) (v : Word) : complement c (complement c v) = v := by
  cases c with
  | ones => exact BitVec.not_not
  | twos => rw [complement_twos_eq_neg, complement_twos_eq_neg, BitVec.neg_neg]

/-- The two complements of one value, each written to a register (R181, R182). -/
theorem writeBack_complement_frame (s : State) (rd : RegIdx) (v : Word) :
    (∃ t, writeBack rd (complement .ones v) s = .next t ∧
      (∀ i, i < 16 → (readReg t rd).getLsbD i = !v.getLsbD i) ∧ PcAdvanced s t ∧ OnlyReg s t rd) ∧
    (∃ t, writeBack rd (complement .twos v) s = .next t ∧
      readReg t rd = trunc16 (65536 - v.toNat) ∧ PcAdvanced s t ∧ OnlyReg s t rd) := by
  refine ⟨?_, ?_⟩
  · obtain ⟨t, hnext, hvalue, hframe⟩ := writeBack_frame s rd (complement .ones v)
    refine ⟨t, hnext, fun i hi => ?_, hframe⟩
    rw [hvalue, getLsbD_complement_ones v hi]
  · rw [← complement_twos_eq_trunc16]
    exact writeBack_frame s rd _

/-- Settles O34. -/
theorem ntrComplementsRegister : Obligations.NtrComplementsRegister := fun rd rs1 =>
  ⟨decode_encode (.ntr .ones rd rs1), decode_encode (.ntr .twos rd rs1),
    fun s => writeBack_complement_frame s rd (readReg s rs1)⟩

/-- Settles O35. -/
theorem ntdComplementsInPlace : Obligations.NtdComplementsInPlace := fun rd =>
  ⟨decode_encode (.ntd .ones rd), decode_encode (.ntd .twos rd),
    fun s => writeBack_complement_frame s rd (readReg s rd)⟩

/-- Settles O50. -/
theorem ntdTwiceRestores : Obligations.NtdTwiceRestores := by
  refine fun c rd s => ⟨rfl, ?_⟩
  obtain ⟨t, hnext, hvalue, -, hregs, -⟩ := writeBack_frame s rd (complement c (readReg s rd))
  obtain ⟨u, hnext', hvalue', -, hregs', -⟩ := writeBack_frame t rd (complement c (readReg t rd))
  refine ⟨t, u, hnext, hnext', fun r => ?_⟩
  by_cases hr : r = rd
  · rw [hr, hvalue', hvalue, complement_complement]
  · rw [hregs' r hr, hregs r hr]

end Sys2Proof.Machine
end

section
/-!
PROOFS. Instructions one after another (spec/20_memory.md section 3, spec/30_encoding.md section 6, spec/41_jump.md): a
load after a store, a constant by two moves, a call and its return, and the jump to itself.
-/

namespace Sys2Proof.Machine

open Sys2Proof.Safety

/-- Settles O48: the store leaves the address register and the program text, so the load reads the cell stored. -/
theorem loadAfterStoreGivesStoredValue : Obligations.LoadAfterStoreGivesStoredValue := by
  intro rd rs1 rd' s t hstore
  obtain ⟨hout, hadvance⟩ := dataAccess_next.mp hstore
  have ht := advance_next.mp hadvance
  have hout' : inProgram t (readReg t rd) = false := by
    rw [ht]
    exact hout
  have hcell : readMem t (readReg t rd) = readReg s rs1 := by
    rw [ht]
    exact readMem_writeMem_same s (readReg s rd) (readReg s rs1)
  obtain ⟨u, hnext, hvalue, -⟩ := writeBack_frame t rd' (readMem t (readReg t rd))
  exact ⟨u, (dataAccess_of_not_inProgram t hout').trans hnext, hvalue.trans hcell⟩

/-! ### MSI then MHI -/

theorem onlyReg_refl (s : State) (rd : RegIdx) : OnlyReg s s rd :=
  ⟨fun _ _ => rfl, ⟨rfl, rfl, rfl⟩, fun _ => rfl, rfl, ⟨rfl, rfl⟩⟩

theorem onlyReg_trans {s t u : State} {rd : RegIdx} (hst : OnlyReg s t rd) (htu : OnlyReg t u rd) : OnlyReg s u rd := by
  obtain ⟨hregs, ⟨hg, hl, he⟩, hmem, hio, hprog, hend⟩ := hst
  obtain ⟨hregs', ⟨hg', hl', he'⟩, hmem', hio', hprog', hend'⟩ := htu
  exact ⟨fun r hr => (hregs' r hr).trans (hregs r hr), ⟨hg'.trans hg, hl'.trans hl, he'.trans he⟩,
    fun a => (hmem' a).trans (hmem a), hio'.trans hio, hprog'.trans hprog, hend'.trans hend⟩

theorem pc_of_pcAdvanced_twice {s t u : State} (hst : PcAdvanced s t) (htu : PcAdvanced t u) :
    u.pc = trunc16 (s.pc.toNat + 2) := by
  rw [PcAdvanced] at hst htu
  rw [← BitVec.toNat_inj, trunc16, BitVec.toNat_ofInt]
  omega

/-- Settles O49: the low byte that MHI keeps is the one MSI moved. -/
theorem moveImmediatePairLoadsConstant : Obligations.MoveImmediatePairLoadsConstant := by
  intro rd high low s
  obtain ⟨t, hnext, hvalue, hpc, honly⟩ := writeBack_frame s rd (sext16 low)
  obtain ⟨u, hnext', hvalue', hpc', honly'⟩ := writeBack_frame t rd (high ++ lowByte (readReg t rd))
  refine ⟨t, u, hnext, hnext', ?_, pc_of_pcAdvanced_twice hpc hpc', onlyReg_trans honly honly'⟩
  rw [hvalue', hvalue, lowByte, extractLsb'_sext16]

/-! ### Jumps -/

/-- Settles O51: adding the pc of the JMR gives the saved address back. -/
theorem returnByComputedOffset : Obligations.ReturnByComputedOffset := by
  intro rd rs1 rd' imm save s t u hcall hoffset
  obtain rfl := endAt_next.mp hcall
  refine ⟨_, rfl, ?_⟩
  rw [setPc_pc, hoffset, ← sub_eq_trunc16, add_sub_cancel, readReg_setPc, readReg_writeReg_same, nextPc_eq_trunc16]

theorem exec_jmi_zero (rd : RegIdx) (s : State) : exec (.jmi rd 0) s = .next (writeReg s rd (nextPc s)) := by
  have htarget : s.pc + sext16 0#6 = s.pc := add_zero s.pc
  exact congrArg (endAt (writeReg s rd (nextPc s))) htarget

theorem onlyReg_writeReg (s : State) (rd : RegIdx) (v : Word) : OnlyReg s (writeReg s rd v) rd :=
  ⟨sameRegsBut_writeReg s rd v, ⟨rfl, rfl, rfl⟩, fun _ => rfl, rfl, ⟨rfl, rfl⟩⟩

/-- Settles O52: the first step saves pc + 1, and every later one writes the same value again. -/
theorem jmiToItselfRunsForever : Obligations.JmiToItselfRunsForever := by
  intro s w rd k hrun hfetch hdecode
  have hfirst : step s = .next (writeReg s rd (nextPc s)) := by
    rw [step_eq_exec hrun hfetch hdecode, exec_jmi_zero]
  have hagain : step (writeReg s rd (nextPc s)) = .next (writeReg s rd (nextPc s)) := by
    have hsame : writeReg (writeReg s rd (nextPc s)) rd (nextPc s) = writeReg s rd (nextPc s) :=
      writeReg_writeReg_same s rd _ _
    rw [step_eq_exec (s := writeReg s rd (nextPc s)) hrun hfetch hdecode, exec_jmi_zero]
    exact congrArg _ hsame
  cases k with
  | zero =>
    exact ⟨s, rfl, rfl, onlyReg_refl s rd, fun hk => absurd hk (Nat.lt_irrefl 0)⟩
  | succ k =>
    have hruns : Host.Core.run Sys2Proof.core (k + 1) s = .next (writeReg s rd (nextPc s)) :=
      (run_succ_of_step (M := Sys2Proof.core) hfirst k).trans (run_of_step_self (M := Sys2Proof.core) hagain k)
    refine ⟨_, hruns, rfl, onlyReg_writeReg s rd _, fun _ => ?_⟩
    rw [readReg_writeReg_same, nextPc_eq_trunc16]

end Sys2Proof.Machine
end

section
/-!
PROOFS. The two readings of a word (spec/44_arithmetic.md, spec/45_compare_branch.md R160, D17): below 0x8000 they are one
number, from there on they differ by 65536.
-/

namespace Sys2Proof.Machine

open Sys2Proof.Safety

theorem valueOf_true_eq (a : Word) :
    valueOf true a = if a.toNat < 0x8000 then valueOf false a else valueOf false a - 65536 := by
  have hsigned : valueOf true a = a.toInt := rfl
  have hunsigned : valueOf false a = a.toNat := rfl
  rw [hsigned, hunsigned, BitVec.toInt_eq_toNat_cond]
  split <;> split <;> omega

theorem valueOf_true_of_lt {a : Word} (h : a.toNat < 0x8000) : valueOf true a = valueOf false a := by
  rw [valueOf_true_eq, if_pos h]

theorem quotient_eq_trunc16 (signed : Bool) (a b : Word) :
    quotient signed a b = trunc16 ((valueOf signed a).tdiv (valueOf signed b)) := by
  cases signed with
  | true => rfl
  | false => exact (BitVec.ofInt_natCast 16 (a.toNat / b.toNat)).symm

/-- The order of the signed readings against that of the unsigned ones, by the sides of 0x8000. -/
theorem valueOf_true_lt_iff (a b : Word) : valueOf true b < valueOf true a ↔
    if a.toNat < 0x8000 ↔ b.toNat < 0x8000 then valueOf false b < valueOf false a
    else valueOf false a < valueOf false b := by
  have ha : valueOf false a = a.toNat := rfl
  have hb : valueOf false b = b.toNat := rfl
  have hlta : a.toNat < 65536 := a.isLt
  have hltb : b.toNat < 65536 := b.isLt
  rw [valueOf_true_eq, valueOf_true_eq, ha, hb]
  split <;> split <;> split <;> omega

theorem isGreater_true_of_same_side {a b : Word} (h : a.toNat < 0x8000 ↔ b.toNat < 0x8000) :
    isGreater true a b = isGreater false a b := by
  rw [Bool.eq_iff_iff, isGreater_iff, isGreater_iff, valueOf_true_lt_iff, if_pos h]

theorem isGreater_true_of_across {a b : Word} (h : ¬(a.toNat < 0x8000 ↔ b.toNat < 0x8000)) :
    isGreater true a b = isLess false a b := by
  rw [Bool.eq_iff_iff, isGreater_iff, isLess_iff, valueOf_true_lt_iff, if_neg h]

/-- Settles O53: less is greater with the operands exchanged, which keeps the sides of 0x8000. -/
theorem signednessReadingsAgree : Obligations.SignednessReadingsAgree := by
  refine fun a b => ⟨fun ha hb => ⟨?_, fun _ => ?_⟩, fun h => ⟨?_, ?_⟩, fun h => ⟨?_, ?_⟩⟩
  · simp only [mulHigh_eq_trunc16, valueOf_true_of_lt ha, valueOf_true_of_lt hb]
  · simp only [quotient_eq_trunc16, valueOf_true_of_lt ha, valueOf_true_of_lt hb]
  · exact isGreater_true_of_same_side h
  · rw [isLess_eq_isGreater, isGreater_true_of_same_side h.symm, isLess_eq_isGreater]
  · exact isGreater_true_of_across h
  · rw [isLess_eq_isGreater, isGreater_true_of_across (mt Iff.symm h), isLess_eq_isGreater]

end Sys2Proof.Machine
end

section
/-!
PROOFS. Listings (spec/30_encoding.md R75 to R78, D24): each operand of a statement names the field it was listed from.
-/

namespace Sys2Proof.Machine

theorem asmField_imm5_toInt (imm : BitVec 5) : asmField 5 (-16) 15 imm.toInt = some imm :=
  asmField_toInt (BitVec.le_toInt imm) (Int.le_of_lt_add_one (BitVec.toInt_lt (x := imm)))

/-- Settles O54, by the operands of the row. -/
theorem assembleOfStatement : Obligations.AssembleOfStatement := by
  intro i
  cases i with
  | ldr | ldrio | str | strio | cmr => exact asmR2_toNat _ _ _
  | jmr save => cases save <;> exact asmR2_toNat _ _ _
  | anr | slr | sar | add | sub | mul | div => exact asmR3_toNat _ _ _ _
  | jmi rd imm => exact (jmiJumpsAndSaves rd imm).2.1
  | ani rd imm | msi rd imm | mhi rd imm | adi rd imm | sui rd imm =>
    exact asmRI_toNat _ rd (asmField_toNat (by decide) (toNat_imm8_le imm))
  | cmi imm reg | brc imm reg | brr imm reg =>
    exact asmRI_toNat _ reg (asmField_toNat (by decide) (toNat_imm5_le imm))
  | shi kind rd shimm => cases kind <;> exact asmRI_toNat _ rd (asmField_imm5_toInt shimm)
  | ntr c => cases c <;> exact asmR2_toNat _ _ _
  | ntd c rd => cases c <;> exact congrArg (Option.map _) (asmReg_toNat rd)

end Sys2Proof.Machine
end
